-- ==== Sys2Proof/Word.lean ====
section
/-! DEFINITION. The bit-vector types of the CHIP-8 core and their plainest arithmetic (spec 00_scope.md R5, section 6). -/

namespace Sys2Proof

/-- A register or memory byte, 8 bits (R5 `REGW`). -/
abbrev Byte := BitVec 8

/-- A 16-bit value: `PC`, `I`, a stack slot, an instruction word (R5 `PCW`, `IW`). -/
abbrev Word := BitVec 16

/-- The immediate `NNN`, 12 bits (R61). -/
abbrev Addr12 := BitVec 12

/-- The immediate `N`, 4 bits (R61). -/
abbrev Nibble := BitVec 4

/-- The index of a general register, 0 to 15 (R10, R61). -/
abbrev RegIdx := BitVec 4

/-- A key code, 0 to 15 (R18, R88). -/
abbrev KeyCode := BitVec 4

/-- `zext_16(v)` of 00_scope.md section 6. -/
def zext16 {n : Nat} (v : BitVec n) : Word := v.setWidth 16

end Sys2Proof
end

