-- ==== Sys2Proof/Syntax.lean ====
section
/-! DEFINITION. The instruction set as syntax: the 34 instructions of spec/opcode_table.json, their mnemonics and formats
(R62), and an assembly line (R73). -/

namespace Sys2Proof

/-- The instructions, one constructor per row of spec/opcode_table.json, in its order. Each operand has the width of its
field (R61), so every term is a well-formed instruction. `shrReg` and `shlReg` keep the ignored `Y` field of their word
(R67, U14; log 17). -/
inductive Instr where
  /-- `clear-screen` (00E0), R150. -/
  | clearScreen
  /-- `return` (00EE), R100. -/
  | ret
  /-- `jump` (1NNN), R101. -/
  | jump (nnn : Addr12)
  /-- `call` (2NNN), R102. -/
  | call (nnn : Addr12)
  /-- `skip-eq-imm` (3XNN), R103. -/
  | skipEqImm (x : RegIdx) (nn : Byte)
  /-- `skip-ne-imm` (4XNN), R104. -/
  | skipNeImm (x : RegIdx) (nn : Byte)
  /-- `skip-eq-reg` (5XY0), R105. -/
  | skipEqReg (x : RegIdx) (y : RegIdx)
  /-- `set-imm` (6XNN), R120. -/
  | setImm (x : RegIdx) (nn : Byte)
  /-- `add-imm` (7XNN), R121. -/
  | addImm (x : RegIdx) (nn : Byte)
  /-- `copy` (8XY0), R122. -/
  | copyReg (x : RegIdx) (y : RegIdx)
  /-- `or` (8XY1), R123. -/
  | orReg (x : RegIdx) (y : RegIdx)
  /-- `and` (8XY2), R124. -/
  | andReg (x : RegIdx) (y : RegIdx)
  /-- `xor` (8XY3), R125. -/
  | xorReg (x : RegIdx) (y : RegIdx)
  /-- `add` (8XY4), R126. -/
  | addReg (x : RegIdx) (y : RegIdx)
  /-- `sub` (8XY5), R127. -/
  | subReg (x : RegIdx) (y : RegIdx)
  /-- `shr` (8XY6), R128. -/
  | shrReg (x : RegIdx) (y : RegIdx)
  /-- `subn` (8XY7), R129. -/
  | subnReg (x : RegIdx) (y : RegIdx)
  /-- `shl` (8XYE), R130. -/
  | shlReg (x : RegIdx) (y : RegIdx)
  /-- `skip-ne-reg` (9XY0), R106. -/
  | skipNeReg (x : RegIdx) (y : RegIdx)
  /-- `set-I` (ANNN), R140. -/
  | setI (nnn : Addr12)
  /-- `jump-offset` (BNNN), R107. -/
  | jumpOffset (nnn : Addr12)
  /-- `rand` (CXNN), R131. -/
  | rand (x : RegIdx) (nn : Byte)
  /-- `draw` (DXYN), R151. -/
  | draw (x : RegIdx) (y : RegIdx) (n : Nibble)
  /-- `skip-key-pressed` (EX9E), R160. -/
  | skipKeyPressed (x : RegIdx)
  /-- `skip-key-released` (EXA1), R161. -/
  | skipKeyReleased (x : RegIdx)
  /-- `get-delay` (FX07), R162. -/
  | getDelay (x : RegIdx)
  /-- `wait-key` (FX0A), R163. -/
  | waitKey (x : RegIdx)
  /-- `set-delay` (FX15), R164. -/
  | setDelay (x : RegIdx)
  /-- `set-sound` (FX18), R165. -/
  | setSound (x : RegIdx)
  /-- `add-I` (FX1E), R141. -/
  | addI (x : RegIdx)
  /-- `font-char` (FX29), R142. -/
  | fontChar (x : RegIdx)
  /-- `store-bcd` (FX33), R143. -/
  | storeBcd (x : RegIdx)
  /-- `reg-dump` (FX55), R144. -/
  | regDump (x : RegIdx)
  /-- `reg-load` (FX65), R145. -/
  | regLoad (x : RegIdx)
  deriving DecidableEq, Repr

/-- The names of the 34 operations (R73), apart from their operands. -/
inductive Mnemonic where
  | clearScreen | ret | jump | call | skipEqImm | skipNeImm
  | skipEqReg | setImm | addImm | copyReg | orReg | andReg
  | xorReg | addReg | subReg | shrReg | subnReg | shlReg
  | skipNeReg | setI | jumpOffset | rand | draw | skipKeyPressed
  | skipKeyReleased | getDelay | waitKey | setDelay | setSound | addI
  | fontChar | storeBcd | regDump | regLoad
  deriving DecidableEq, Repr

/-- All mnemonics, in the order of the opcode table. -/
def Mnemonic.all : List Mnemonic :=
  [.clearScreen, .ret, .jump, .call, .skipEqImm, .skipNeImm, .skipEqReg,
   .setImm, .addImm, .copyReg, .orReg, .andReg, .xorReg, .addReg,
   .subReg, .shrReg, .subnReg, .shlReg, .skipNeReg, .setI, .jumpOffset,
   .rand, .draw, .skipKeyPressed, .skipKeyReleased, .getDelay, .waitKey, .setDelay,
   .setSound, .addI, .fontChar, .storeBcd, .regDump, .regLoad]

/-- The spelling of a mnemonic in assembly text (R73). -/
def Mnemonic.text : Mnemonic → String
  | .clearScreen => "clear-screen"
  | .ret => "return"
  | .jump => "jump"
  | .call => "call"
  | .skipEqImm => "skip-eq-imm"
  | .skipNeImm => "skip-ne-imm"
  | .skipEqReg => "skip-eq-reg"
  | .setImm => "set-imm"
  | .addImm => "add-imm"
  | .copyReg => "copy"
  | .orReg => "or"
  | .andReg => "and"
  | .xorReg => "xor"
  | .addReg => "add"
  | .subReg => "sub"
  | .shrReg => "shr"
  | .subnReg => "subn"
  | .shlReg => "shl"
  | .skipNeReg => "skip-ne-reg"
  | .setI => "set-I"
  | .jumpOffset => "jump-offset"
  | .rand => "rand"
  | .draw => "draw"
  | .skipKeyPressed => "skip-key-pressed"
  | .skipKeyReleased => "skip-key-released"
  | .getDelay => "get-delay"
  | .waitKey => "wait-key"
  | .setDelay => "set-delay"
  | .setSound => "set-sound"
  | .addI => "add-I"
  | .fontChar => "font-char"
  | .storeBcd => "store-bcd"
  | .regDump => "reg-dump"
  | .regLoad => "reg-load"

/-- The word formats of R62. -/
inductive Format where
  | Z | A | XK | XY | XYN | XS
  deriving DecidableEq, Repr

/-- The format of each operation (R62). -/
def Mnemonic.format : Mnemonic → Format
  | .clearScreen | .ret => .Z
  | .jump | .call | .setI | .jumpOffset => .A
  | .skipEqImm | .skipNeImm | .setImm | .addImm | .rand => .XK
  | .skipEqReg | .copyReg | .orReg | .andReg | .xorReg | .addReg | .subReg | .shrReg | .subnReg | .shlReg | .skipNeReg => .XY
  | .draw => .XYN
  | .skipKeyPressed | .skipKeyReleased | .getDelay | .waitKey | .setDelay | .setSound | .addI | .fontChar | .storeBcd | .regDump | .regLoad => .XS

/-- The operation of an instruction. -/
def Instr.mnemonic : Instr → Mnemonic
  | .clearScreen => .clearScreen
  | .ret => .ret
  | .jump _ => .jump
  | .call _ => .call
  | .skipEqImm _ _ => .skipEqImm
  | .skipNeImm _ _ => .skipNeImm
  | .skipEqReg _ _ => .skipEqReg
  | .setImm _ _ => .setImm
  | .addImm _ _ => .addImm
  | .copyReg _ _ => .copyReg
  | .orReg _ _ => .orReg
  | .andReg _ _ => .andReg
  | .xorReg _ _ => .xorReg
  | .addReg _ _ => .addReg
  | .subReg _ _ => .subReg
  | .shrReg _ _ => .shrReg
  | .subnReg _ _ => .subnReg
  | .shlReg _ _ => .shlReg
  | .skipNeReg _ _ => .skipNeReg
  | .setI _ => .setI
  | .jumpOffset _ => .jumpOffset
  | .rand _ _ => .rand
  | .draw _ _ _ => .draw
  | .skipKeyPressed _ => .skipKeyPressed
  | .skipKeyReleased _ => .skipKeyReleased
  | .getDelay _ => .getDelay
  | .waitKey _ => .waitKey
  | .setDelay _ => .setDelay
  | .setSound _ => .setSound
  | .addI _ => .addI
  | .fontChar _ => .fontChar
  | .storeBcd _ => .storeBcd
  | .regDump _ => .regDump
  | .regLoad _ => .regLoad

/-- What an operand of an assembly line is: a register index `V0` to `VF`, or an immediate of 4, 8 or 12 bits (R73). -/
inductive OperandKind where
  | reg | imm4 | imm8 | addr12
  deriving DecidableEq, Repr

/-- The operands an assembly line of each operation takes, in the order `X`, `Y`, immediate (R73). `shr` and `shl` take
one. -/
def Mnemonic.operandKinds : Mnemonic → List OperandKind
  | .clearScreen => []
  | .ret => []
  | .jump => [.addr12]
  | .call => [.addr12]
  | .skipEqImm => [.reg, .imm8]
  | .skipNeImm => [.reg, .imm8]
  | .skipEqReg => [.reg, .reg]
  | .setImm => [.reg, .imm8]
  | .addImm => [.reg, .imm8]
  | .copyReg => [.reg, .reg]
  | .orReg => [.reg, .reg]
  | .andReg => [.reg, .reg]
  | .xorReg => [.reg, .reg]
  | .addReg => [.reg, .reg]
  | .subReg => [.reg, .reg]
  | .shrReg => [.reg]
  | .subnReg => [.reg, .reg]
  | .shlReg => [.reg]
  | .skipNeReg => [.reg, .reg]
  | .setI => [.addr12]
  | .jumpOffset => [.addr12]
  | .rand => [.reg, .imm8]
  | .draw => [.reg, .reg, .imm4]
  | .skipKeyPressed => [.reg]
  | .skipKeyReleased => [.reg]
  | .getDelay => [.reg]
  | .waitKey => [.reg]
  | .setDelay => [.reg]
  | .setSound => [.reg]
  | .addI => [.reg]
  | .fontChar => [.reg]
  | .storeBcd => [.reg]
  | .regDump => [.reg]
  | .regLoad => [.reg]

/-- The operands of an instruction as the numbers an assembly line writes (R73). -/
def Instr.operands : Instr → List Nat
  | .clearScreen => []
  | .ret => []
  | .jump nnn => [nnn.toNat]
  | .call nnn => [nnn.toNat]
  | .skipEqImm x nn => [x.toNat, nn.toNat]
  | .skipNeImm x nn => [x.toNat, nn.toNat]
  | .skipEqReg x y => [x.toNat, y.toNat]
  | .setImm x nn => [x.toNat, nn.toNat]
  | .addImm x nn => [x.toNat, nn.toNat]
  | .copyReg x y => [x.toNat, y.toNat]
  | .orReg x y => [x.toNat, y.toNat]
  | .andReg x y => [x.toNat, y.toNat]
  | .xorReg x y => [x.toNat, y.toNat]
  | .addReg x y => [x.toNat, y.toNat]
  | .subReg x y => [x.toNat, y.toNat]
  | .shrReg x _ => [x.toNat]
  | .subnReg x y => [x.toNat, y.toNat]
  | .shlReg x _ => [x.toNat]
  | .skipNeReg x y => [x.toNat, y.toNat]
  | .setI nnn => [nnn.toNat]
  | .jumpOffset nnn => [nnn.toNat]
  | .rand x nn => [x.toNat, nn.toNat]
  | .draw x y n => [x.toNat, y.toNat, n.toNat]
  | .skipKeyPressed x => [x.toNat]
  | .skipKeyReleased x => [x.toNat]
  | .getDelay x => [x.toNat]
  | .waitKey x => [x.toNat]
  | .setDelay x => [x.toNat]
  | .setSound x => [x.toNat]
  | .addI x => [x.toNat]
  | .fontChar x => [x.toNat]
  | .storeBcd x => [x.toNat]
  | .regDump x => [x.toNat]
  | .regLoad x => [x.toNat]

/-- An assembly line (R73): a mnemonic and its operands as the natural numbers written, which need not fit. The text level
(spelling of numbers, commas, comments) is left to the reader of a file (log 18). -/
structure AsmLine where
  mnemonic : Mnemonic
  operands : List Nat
  deriving DecidableEq, Repr

end Sys2Proof
end

