-- ==== Sys2Proof/WellFormed.lean ====
section
/-! DEFINITION. When an assembly line is well formed (R73). A term of `Instr` needs no check: its fields have the widths of
R61. -/

namespace Sys2Proof

/-- How many values an operand of each kind has: 16 registers, `N` 0 to 15, `NN` 0 to 255, `NNN` 0 to 4095 (R73). -/
def OperandKind.count : OperandKind → Nat
  | .reg => 16
  | .imm4 => 16
  | .imm8 => 256
  | .addr12 => 4096

/-- A literal fits its field (R73). -/
def OperandKind.fits (k : OperandKind) (n : Nat) : Bool := decide (n < k.count)

/-- The literals fit the fields of the operation, one literal for each field and no more. -/
def operandsFit : List OperandKind → List Nat → Bool
  | [], [] => true
  | k :: ks, n :: ns => k.fits n && operandsFit ks ns
  | _, _ => false

/-- An assembly line the assembler accepts (R73). -/
def AsmLine.wf (l : AsmLine) : Bool := operandsFit l.mnemonic.operandKinds l.operands

end Sys2Proof
end

