-- ==== Sys2Proof/Decode.lean ====
section
/-! DEFINITION. From words to instructions and back: the fields of a word (R61), the decoder (R64 to R70, R83), the encoder
written from the same tables, the opcode table's rows, and the assembler (R73). The numeric values are those the spec
adopts (D2, D3; log 9). -/

namespace Sys2Proof

/-- `fam = w[15:12]` (R61). -/
def fieldFam (w : Word) : Nibble := w.extractLsb' 12 4

/-- `X = w[11:8]` (R61). -/
def fieldX (w : Word) : RegIdx := w.extractLsb' 8 4

/-- `Y = w[7:4]` (R61). -/
def fieldY (w : Word) : RegIdx := w.extractLsb' 4 4

/-- `N = w[3:0]` (R61). -/
def fieldN (w : Word) : Nibble := w.extractLsb' 0 4

/-- `NN = w[7:0]` (R61). -/
def fieldNN (w : Word) : Byte := w.extractLsb' 0 8

/-- `NNN = w[11:0]` (R61). -/
def fieldNNN (w : Word) : Addr12 := w.extractLsb' 0 12

/-- Why a word, or a list of bytes, is no instruction (R70). -/
inductive DecodeError where
  /-- Family 0x0: neither 0x00E0 nor 0x00EE (R65). -/
  | unknownSystemWord
  /-- Families 0x5 and 0x9: the low nibble is not 0 (R66). -/
  | unknownCompareSelector
  /-- Family 0x8: the low nibble selects no ALU operation (R67). -/
  | unknownAluSelector
  /-- Family 0xE: the low byte is neither 0x9E nor 0xA1 (R68). -/
  | unknownKeySelector
  /-- Family 0xF: the low byte selects no operation (R69). -/
  | unknownMiscSelector
  /-- Fewer than the two bytes of an instruction (R60). -/
  | truncated
  deriving DecidableEq, Repr

/-- Family 0x0, matched on the whole word (R65). -/
def decodeSystem (w : Word) : Except DecodeError Instr :=
  if w = 0x00E0#16 then .ok .clearScreen
  else if w = 0x00EE#16 then .ok .ret
  else .error .unknownSystemWord

/-- Families 0x5 and 0x9: the low nibble must be 0 (R66). -/
def decodeCompare (op : RegIdx → RegIdx → Instr) (w : Word) : Except DecodeError Instr :=
  if fieldN w = 0#4 then .ok (op (fieldX w) (fieldY w)) else .error .unknownCompareSelector

/-- Family 0x8, second level on `N` (R67). -/
def decodeAlu (w : Word) : Except DecodeError Instr :=
  match (fieldN w).toNat with
  | 0x0 => .ok (.copyReg (fieldX w) (fieldY w))
  | 0x1 => .ok (.orReg (fieldX w) (fieldY w))
  | 0x2 => .ok (.andReg (fieldX w) (fieldY w))
  | 0x3 => .ok (.xorReg (fieldX w) (fieldY w))
  | 0x4 => .ok (.addReg (fieldX w) (fieldY w))
  | 0x5 => .ok (.subReg (fieldX w) (fieldY w))
  | 0x6 => .ok (.shrReg (fieldX w) (fieldY w))
  | 0x7 => .ok (.subnReg (fieldX w) (fieldY w))
  | 0xE => .ok (.shlReg (fieldX w) (fieldY w))
  | _ => .error .unknownAluSelector

/-- Family 0xE, second level on `NN` (R68). -/
def decodeKey (w : Word) : Except DecodeError Instr :=
  if fieldNN w = 0x9E#8 then .ok (.skipKeyPressed (fieldX w))
  else if fieldNN w = 0xA1#8 then .ok (.skipKeyReleased (fieldX w))
  else .error .unknownKeySelector

/-- Family 0xF, second level on `NN` (R69). -/
def decodeMisc (w : Word) : Except DecodeError Instr :=
  if fieldNN w = 0x07#8 then .ok (.getDelay (fieldX w))
  else if fieldNN w = 0x0A#8 then .ok (.waitKey (fieldX w))
  else if fieldNN w = 0x15#8 then .ok (.setDelay (fieldX w))
  else if fieldNN w = 0x18#8 then .ok (.setSound (fieldX w))
  else if fieldNN w = 0x1E#8 then .ok (.addI (fieldX w))
  else if fieldNN w = 0x29#8 then .ok (.fontChar (fieldX w))
  else if fieldNN w = 0x33#8 then .ok (.storeBcd (fieldX w))
  else if fieldNN w = 0x55#8 then .ok (.regDump (fieldX w))
  else if fieldNN w = 0x65#8 then .ok (.regLoad (fieldX w))
  else .error .unknownMiscSelector

/-- `decode(w)`: the two-level dispatch on the family and its selector (R64, R83). Total; it reads nothing but `w`. -/
def decode (w : Word) : Except DecodeError Instr :=
  match (fieldFam w).toNat with
  | 0x0 => decodeSystem w
  | 0x1 => .ok (.jump (fieldNNN w))
  | 0x2 => .ok (.call (fieldNNN w))
  | 0x3 => .ok (.skipEqImm (fieldX w) (fieldNN w))
  | 0x4 => .ok (.skipNeImm (fieldX w) (fieldNN w))
  | 0x5 => decodeCompare .skipEqReg w
  | 0x6 => .ok (.setImm (fieldX w) (fieldNN w))
  | 0x7 => .ok (.addImm (fieldX w) (fieldNN w))
  | 0x8 => decodeAlu w
  | 0x9 => decodeCompare .skipNeReg w
  | 0xA => .ok (.setI (fieldNNN w))
  | 0xB => .ok (.jumpOffset (fieldNNN w))
  | 0xC => .ok (.rand (fieldX w) (fieldNN w))
  | 0xD => .ok (.draw (fieldX w) (fieldY w) (fieldN w))
  | 0xE => decodeKey w
  -- The one family left is 0xF: a nibble is below 16.
  | _ => decodeMisc w

/-- The instruction word of two consecutive bytes, the byte at the lower address high: `hi ++ lo` (R44, R60). -/
def joinBytes (hi lo : Byte) : Word := hi ++ lo

/-- The two bytes of a word in address order (R44). -/
def wordBytes (w : Word) : List Byte := [w.extractLsb' 8 8, w.extractLsb' 0 8]

/-- Decode the first instruction of a list of bytes and hand back the rest (R60). -/
def decodeBytes : List Byte → Except DecodeError (Instr × List Byte)
  | hi :: lo :: rest => (decode (joinBytes hi lo)).map fun i => (i, rest)
  | _ => .error .truncated

/-- The instruction the decoder reads from the `nbits`-bit number `w` of spec/opcode_table.json: bits above `nbits` are 0,
and the word is laid out as the hardware stores it. -/
def decodeTableWord (nbits w : Nat) : Option Instr :=
  match decodeBytes (wordBytes (BitVec.ofNat 16 (w % 2 ^ nbits))) with
  | .ok (i, _) => some i
  | .error _ => none

/-- The word of an instruction (R61 to R69). -/
def encode : Instr → Word
  | .clearScreen => 0x00E0#16
  | .ret => 0x00EE#16
  | .jump nnn => 0x1#4 ++ nnn
  | .call nnn => 0x2#4 ++ nnn
  | .skipEqImm x nn => 0x3#4 ++ x ++ nn
  | .skipNeImm x nn => 0x4#4 ++ x ++ nn
  | .skipEqReg x y => 0x5#4 ++ x ++ y ++ 0x0#4
  | .setImm x nn => 0x6#4 ++ x ++ nn
  | .addImm x nn => 0x7#4 ++ x ++ nn
  | .copyReg x y => 0x8#4 ++ x ++ y ++ 0x0#4
  | .orReg x y => 0x8#4 ++ x ++ y ++ 0x1#4
  | .andReg x y => 0x8#4 ++ x ++ y ++ 0x2#4
  | .xorReg x y => 0x8#4 ++ x ++ y ++ 0x3#4
  | .addReg x y => 0x8#4 ++ x ++ y ++ 0x4#4
  | .subReg x y => 0x8#4 ++ x ++ y ++ 0x5#4
  | .shrReg x y => 0x8#4 ++ x ++ y ++ 0x6#4
  | .subnReg x y => 0x8#4 ++ x ++ y ++ 0x7#4
  | .shlReg x y => 0x8#4 ++ x ++ y ++ 0xE#4
  | .skipNeReg x y => 0x9#4 ++ x ++ y ++ 0x0#4
  | .setI nnn => 0xA#4 ++ nnn
  | .jumpOffset nnn => 0xB#4 ++ nnn
  | .rand x nn => 0xC#4 ++ x ++ nn
  | .draw x y n => 0xD#4 ++ x ++ y ++ n
  | .skipKeyPressed x => 0xE#4 ++ x ++ 0x9E#8
  | .skipKeyReleased x => 0xE#4 ++ x ++ 0xA1#8
  | .getDelay x => 0xF#4 ++ x ++ 0x07#8
  | .waitKey x => 0xF#4 ++ x ++ 0x0A#8
  | .setDelay x => 0xF#4 ++ x ++ 0x15#8
  | .setSound x => 0xF#4 ++ x ++ 0x18#8
  | .addI x => 0xF#4 ++ x ++ 0x1E#8
  | .fontChar x => 0xF#4 ++ x ++ 0x29#8
  | .storeBcd x => 0xF#4 ++ x ++ 0x33#8
  | .regDump x => 0xF#4 ++ x ++ 0x55#8
  | .regLoad x => 0xF#4 ++ x ++ 0x65#8

/-- The bits a format fixes: the `mask` column of spec/opcode_table.json (R62). -/
def Format.mask : Format → Word
  | .Z => 0xFFFF
  | .A => 0xF000
  | .XK => 0xF000
  | .XY => 0xF00F
  | .XYN => 0xF000
  | .XS => 0xF0FF

/-- The values of the fixed bits of an operation: the `match` column of spec/opcode_table.json (R64 to R69). -/
def Mnemonic.bits : Mnemonic → Word
  | .clearScreen => 0x00E0
  | .ret => 0x00EE
  | .jump => 0x1000
  | .call => 0x2000
  | .skipEqImm => 0x3000
  | .skipNeImm => 0x4000
  | .skipEqReg => 0x5000
  | .setImm => 0x6000
  | .addImm => 0x7000
  | .copyReg => 0x8000
  | .orReg => 0x8001
  | .andReg => 0x8002
  | .xorReg => 0x8003
  | .addReg => 0x8004
  | .subReg => 0x8005
  | .shrReg => 0x8006
  | .subnReg => 0x8007
  | .shlReg => 0x800E
  | .skipNeReg => 0x9000
  | .setI => 0xA000
  | .jumpOffset => 0xB000
  | .rand => 0xC000
  | .draw => 0xD000
  | .skipKeyPressed => 0xE09E
  | .skipKeyReleased => 0xE0A1
  | .getDelay => 0xF007
  | .waitKey => 0xF00A
  | .setDelay => 0xF015
  | .setSound => 0xF018
  | .addI => 0xF01E
  | .fontChar => 0xF029
  | .storeBcd => 0xF033
  | .regDump => 0xF055
  | .regLoad => 0xF065

/-- A word lies in the row of an operation: it has the row's fixed bits. -/
def Mnemonic.matchesWord (m : Mnemonic) (w : Word) : Bool := w &&& m.format.mask == m.bits

/-- Why an assembly line is refused (R73). -/
inductive AsmError where
  /-- An operand is missing, is one too many, or does not fit its field. -/
  | operandsDoNotFit
  deriving DecidableEq, Repr

/-- The instruction of a mnemonic and its first three operands, each taken at the width of its field. `shr` and `shl`
assemble with `Y` = 0 (R73). -/
def buildInstr (m : Mnemonic) (a b c : Nat) : Instr :=
  match m with
  | .clearScreen => .clearScreen
  | .ret => .ret
  | .jump => .jump (.ofNat 12 a)
  | .call => .call (.ofNat 12 a)
  | .skipEqImm => .skipEqImm (.ofNat 4 a) (.ofNat 8 b)
  | .skipNeImm => .skipNeImm (.ofNat 4 a) (.ofNat 8 b)
  | .skipEqReg => .skipEqReg (.ofNat 4 a) (.ofNat 4 b)
  | .setImm => .setImm (.ofNat 4 a) (.ofNat 8 b)
  | .addImm => .addImm (.ofNat 4 a) (.ofNat 8 b)
  | .copyReg => .copyReg (.ofNat 4 a) (.ofNat 4 b)
  | .orReg => .orReg (.ofNat 4 a) (.ofNat 4 b)
  | .andReg => .andReg (.ofNat 4 a) (.ofNat 4 b)
  | .xorReg => .xorReg (.ofNat 4 a) (.ofNat 4 b)
  | .addReg => .addReg (.ofNat 4 a) (.ofNat 4 b)
  | .subReg => .subReg (.ofNat 4 a) (.ofNat 4 b)
  | .shrReg => .shrReg (.ofNat 4 a) 0
  | .subnReg => .subnReg (.ofNat 4 a) (.ofNat 4 b)
  | .shlReg => .shlReg (.ofNat 4 a) 0
  | .skipNeReg => .skipNeReg (.ofNat 4 a) (.ofNat 4 b)
  | .setI => .setI (.ofNat 12 a)
  | .jumpOffset => .jumpOffset (.ofNat 12 a)
  | .rand => .rand (.ofNat 4 a) (.ofNat 8 b)
  | .draw => .draw (.ofNat 4 a) (.ofNat 4 b) (.ofNat 4 c)
  | .skipKeyPressed => .skipKeyPressed (.ofNat 4 a)
  | .skipKeyReleased => .skipKeyReleased (.ofNat 4 a)
  | .getDelay => .getDelay (.ofNat 4 a)
  | .waitKey => .waitKey (.ofNat 4 a)
  | .setDelay => .setDelay (.ofNat 4 a)
  | .setSound => .setSound (.ofNat 4 a)
  | .addI => .addI (.ofNat 4 a)
  | .fontChar => .fontChar (.ofNat 4 a)
  | .storeBcd => .storeBcd (.ofNat 4 a)
  | .regDump => .regDump (.ofNat 4 a)
  | .regLoad => .regLoad (.ofNat 4 a)

/-- The assembler (R73): a well-formed line has one instruction, any other line none. -/
def assemble (l : AsmLine) : Except AsmError Instr :=
  if l.wf then .ok (buildInstr l.mnemonic (l.operands.getD 0 0) (l.operands.getD 1 0) (l.operands.getD 2 0))
  else .error .operandsDoNotFit

end Sys2Proof
end

