-- ==== Sys2Proof/Config.lean ====
section
/-! DEFINITION. What the source fixes once (R5), the implementation parameters (R6) and the free values of the model. -/

namespace Sys2Proof

/-- `MEM_SIZE` (R5). -/
def Config.memSize : Nat := 4096

/-- `PROG_BASE`, the entry point and the place of a program image (R5, R195). -/
def Config.progBase : Nat := 0x200

/-- The size of the font table: 16 glyphs of `GLYPH_BYTES` = 5 bytes at `FONT_BASE` = 0 (R5, R41). -/
def Config.fontSize : Nat := 80

/-- `GLYPH_BYTES` (R5). -/
def Config.glyphBytes : Nat := 5

/-- `FLAG_REG`: register 15, `VF` (R5, R11). -/
def Config.flagReg : RegIdx := 15

/-- The number of bytes an image may have: 4096 - 0x200 (R193). -/
def Config.maxImage : Nat := 3584

/-- `STACK_DEPTH` of the default setting (R6(a), D4). DESIGN CHOICE: log 3. -/
def Config.stackDepth : Nat := 16

/-- The two values of `UNKNOWN_OPCODE_POLICY` (R6(b), R174). -/
inductive UnknownOpcodePolicy where
  | fault
  | nop
  deriving DecidableEq, Repr

/-- `UNKNOWN_OPCODE_POLICY` of the default setting (R6(b), D5). DESIGN CHOICE: log 4. -/
def Config.unknownOpcodePolicy : UnknownOpcodePolicy := .fault

/-- `KEY_PICK` of the default setting (R6(d), D13): of the keys that are down, listed from key 0 upwards, the smallest.
DESIGN CHOICE: log 6. On the empty list, which `wait-key` never passes, it answers 0. -/
def Config.keyPick (down : List KeyCode) : KeyCode := down.headD 0

/-- The parameters an implementation sets (R6), which the model takes as an argument; `FONT_ROM` (R6(c)), open and without
a default, is the free value `Config.fontRom`. -/
structure Params where
  /-- `STACK_DEPTH`, the maximum number of saved return addresses (R6(a)). -/
  stackDepth : Nat
  /-- `UNKNOWN_OPCODE_POLICY` (R6(b)). -/
  unknownOpcodePolicy : UnknownOpcodePolicy
  /-- `KEY_PICK`, given the keys that are down from key 0 upwards, at least one (R6(d)). -/
  keyPick : List KeyCode → KeyCode

/-- What R6 asks of the parameters: a positive depth, and a pick that answers one of the keys that are down. -/
structure Params.Legal (P : Params) : Prop where
  depthPositive : 0 < P.stackDepth
  picksAMember : ∀ ks : List KeyCode, ks ≠ [] → P.keyPick ks ∈ ks

/-- The default setting (R6): the machine behind `step` has it (log 20). -/
def Config.params : Params where
  stackDepth := Config.stackDepth
  unknownOpcodePolicy := Config.unknownOpcodePolicy
  keyPick := Config.keyPick

/-- `FONT_ROM` (R6(c), D6): OPEN, no default. A free value: it has no body a proof can see (log 5). -/
opaque Config.fontRom : Fin 80 → Byte

/-- The random byte that the `k`-th execution of `rand` draws (R8, D15). A free value for each `k` (log 7). -/
opaque Config.randomByte : Nat → Byte

end Sys2Proof
end

