-- ==== Sys2Proof/Machine/State.lean ====
section
/-! DEFINITION. The state of the core as plain data (spec 10_state.md R10 to R22), the reasons a step can stop, and the
state after reset (R24, R190). -/

namespace Sys2Proof.Machine

/-- Memory as the bytes that differ from the reset contents: addresses strictly rising, below 4096, no entry equal to what
an unlisted address reads as (R19, R40; log 13). -/
abbrev Memory := List Host.Cell

/-- The cause of a fault, the field `FAULT.code` (R21, R170). -/
inductive FaultCode where
  /-- Code 0: running (R170). -/
  | none
  /-- Code 1: `return` with `SP` = 0 (R172). -/
  | stackUnderflow
  /-- Code 2: `call` with `SP` = `STACK_DEPTH` (R173). -/
  | stackOverflow
  /-- Code 3: a word that is no instruction, under the policy `Fault` (R174). -/
  | unknownOpcode
  /-- Code 4: fetch, `draw`, `store-bcd`, `reg-dump` or `reg-load` beyond address 4095 (R171). -/
  | memRange
  /-- Code 5: a key skip with `V[X]` above 15 (R175). -/
  | keyRange
  deriving DecidableEq, Repr

/-- The number of a cause, 3 bits (R170). -/
def FaultCode.number : FaultCode → BitVec 3
  | .none => 0
  | .stackUnderflow => 1
  | .stackOverflow => 2
  | .unknownOpcode => 3
  | .memRange => 4
  | .keyRange => 5

/-- The fault record `FAULT` (R21). -/
structure FaultRecord where
  /-- 1 when the core is halted. -/
  valid : Bool
  /-- The cause. -/
  code : FaultCode
  /-- The address of the faulting instruction. -/
  pc : Word
  /-- The fetched word, 0 when the fetch itself faulted. -/
  instr : Word
  /-- The lowest invalid address of a memory-range fault, else 0. -/
  addr : Word
  deriving DecidableEq, Repr

/-- The record of a running core: every field 0 (R24). -/
def FaultRecord.clear : FaultRecord := ⟨false, .none, 0, 0, 0⟩

/-- The machine state (R10 to R21), and the model's own count of random bytes drawn. -/
structure State where
  /-- `V[0]` to `V[15]` (R10, R11). -/
  v : Vector Byte 16
  /-- The address register `I` (R12). -/
  iReg : Word
  /-- The program counter `PC` (R13). -/
  pc : Word
  /-- The stack pointer `SP`: how many values are saved, 0 to `STACK_DEPTH` (R15; log 15). -/
  sp : Nat
  /-- The slots `STACK[0]` to `STACK[STACK_DEPTH-1]`, as many as the parameter says (R15; log 15). -/
  stack : List Word
  /-- The delay timer `DT` (R16). -/
  dt : Byte
  /-- The sound timer `ST` (R17). -/
  st : Byte
  /-- The key flags `KEY[0]` to `KEY[15]`, true for down (R18). -/
  key : Vector Bool 16
  /-- Memory `MEM` (R19). -/
  mem : Memory
  /-- The display `DISP`, row by row from the top; bit `x` of a row is column `x` (R20; log 14). -/
  disp : Vector (BitVec 64) 32
  /-- The fault record `FAULT` (R21). -/
  fault : FaultRecord
  /-- THE MODEL'S OWN: how many random bytes `rand` has drawn, which picks the next free value (R8; log 7). -/
  rndDraws : Nat
  deriving DecidableEq, Repr

/-- Why a step stops with no next state: NEVER. Every fault of R170 is taken as the spec describes its entry (R177), which
is a next state with `FAULT` set, and a halted core answers itself (R85). So there is no constructor, no path raises one,
and that is exact, neither safe nor unsafe (logs 1 and 2). -/
inductive Fault where
  deriving DecidableEq, Repr

/-- Why the model gives no meaning to an instruction. -/
inductive Refusal where
  /-- Raised only by an arm of `exec` whose instruction has no meaning yet; at present by none. Safe: it stops where the
  hardware goes on. -/
  | notModelled (mnemonic : String)
  deriving DecidableEq, Repr

/-- The state after `reset()` and after power-on (R24, R190, R191) of a core with the given parameters, of which only the
number of stack slots matters. The dead stack slots, for which R24 gives no value, are
0 (DESIGN CHOICE: log 8), and the model's own count is 0 (DESIGN CHOICE: log 7). -/
def State.resetWith (P : Params) : State where
  v := Vector.replicate 16 0
  iReg := 0
  pc := 0x0200
  sp := 0
  stack := List.replicate P.stackDepth 0
  dt := 0
  st := 0
  key := Vector.replicate 16 false
  mem := []
  disp := Vector.replicate 32 0
  fault := FaultRecord.clear
  rndDraws := 0

/-- The state after reset under the default setting (log 20). -/
def State.reset : State := State.resetWith Config.params

end Sys2Proof.Machine
end

