-- ==== Sys2Proof/Machine/Operands.lean ====
section
/-! DEFINITION. Operands: the general registers one by one and as a block, the address register, the effective address, the
two values of PC an instruction uses, and the digits `store-bcd` writes (spec R10, R12, R14, R63, R90, R146). -/

namespace Sys2Proof.Machine

/-- `V[x]`: no register is hard-wired (R10). -/
def State.V (s : State) (x : RegIdx) : Byte := s.v[x.toNat]'x.isLt

/-- `V[x] <- b` (R10). -/
def State.setV (s : State) (x : RegIdx) (b : Byte) : State := { s with v := s.v.set x.toNat b x.isLt }

/-- `I <- w` (R12): never checked when written. -/
def State.setI (s : State) (w : Word) : State := { s with iReg := w }

/-- `PC <- w` (R13): never checked when written. -/
def State.setPc (s : State) (w : Word) : State := { s with pc := w }

/-- `pc0`, the address of the instruction being executed, whose `PC` already holds `npc = pc0 + 2` (R14, R82). -/
def State.pc0 (s : State) : Word := s.pc - 2

/-- The effective address `EA(k) = I + k` of R146: a natural number, with no wrap. -/
def State.effAddr (s : State) (k : Nat) : Nat := s.iReg.toNat + k

/-- `V[0]` to `V[x]`, in ascending order (R144). -/
def State.regsUpTo (s : State) (x : RegIdx) : List Byte :=
  (List.range (x.toNat + 1)).map fun k => s.V (BitVec.ofNat 4 k)

/-- `V[k] <- b, V[k+1] <- b', ...` in ascending order (R145); there is no register above 15. -/
def writeRegs (v : Vector Byte 16) (k : Nat) : List Byte → Vector Byte 16
  | [] => v
  | b :: bs => writeRegs (v.setIfInBounds k b) (k + 1) bs

/-- `V[0], V[1], ... <- bs` (R145). -/
def State.loadRegs (s : State) (bs : List Byte) : State := { s with v := writeRegs s.v 0 bs }

/-- The hundreds, tens and units digits of a byte, as bytes (R143). -/
def bcdDigits (b : Byte) : List Byte :=
  [BitVec.ofNat 8 (b.toNat / 100), BitVec.ofNat 8 (b.toNat / 10 % 10), BitVec.ofNat 8 (b.toNat % 10)]

/-- `KEY[k]` (R18). -/
def State.keyDown (s : State) (k : KeyCode) : Bool := s.key[k.toNat]'k.isLt

/-- The set `D` of keys that are down, from key 0 upwards (R163). -/
def State.keysDown (s : State) : List KeyCode :=
  ((List.range 16).map (BitVec.ofNat 4)).filter s.keyDown

end Sys2Proof.Machine
end

