-- ==== Sys2Proof/Machine/Flags.lean ====
section
/-! DEFINITION. Every flag computation of the ALU family and of `draw` (spec R126 to R130, R151), and the order in which a flag
and a result are written (R90). -/

namespace Sys2Proof.Machine

/-- A flag as the byte `VF` receives: 1 or 0 (R11). -/
def flagByte (b : Bool) : Byte := if b then 1 else 0

/-- Carry out of bit 7: the exact sum exceeds 255 (R126). -/
def carryFlag (a b : Byte) : Byte := flagByte (decide (a.toNat + b.toNat > 255))

/-- No borrow in `a - b`: `a >= b` (R127, R129). -/
def noBorrowFlag (a b : Byte) : Byte := flagByte (decide (a.toNat ≥ b.toNat))

/-- The bit a right shift by one drops: bit 0 (R128). -/
def lowBitFlag (a : Byte) : Byte := flagByte (a.getLsbD 0)

/-- The bit a left shift by one drops: bit 7 (R130). -/
def highBitFlag (a : Byte) : Byte := flagByte (a.getLsbD 7)

/-- `VF <- flag`. -/
def State.setFlag (s : State) (flag : Byte) : State := s.setV Config.flagReg flag

/-- The flag is written first and the result second, both computed from the state before the instruction; with `x` = 15 the
result is what remains (R90; log 10). -/
def State.writeFlagThenResult (s : State) (flag : Byte) (x : RegIdx) (result : Byte) : State :=
  (s.setFlag flag).setV x result

end Sys2Proof.Machine
end

