-- ==== Sys2Proof/Machine/Ops.lean ====
section
/-! DEFINITION. The named operations the instructions share: memory (spec 20_memory.md), the call stack (R15), skips (R110),
the display compositor (R151 to R154), the random byte (R8), fetching (R81, R82), and taking a fault (R177). -/

namespace Sys2Proof.Machine

/-! ## Memory -/

/-- What a byte that nothing has written reads as: the reset contents, `FONT_ROM` in 0x000 to 0x04F and 0 above (R24,
R41). -/
def Memory.unwritten (a : Nat) : Byte :=
  if h : a < Config.fontSize then Config.fontRom ⟨a, h⟩ else 0

/-- `MEM[a]` (R43). -/
def Memory.read : Memory → Nat → Byte
  | [], a => Memory.unwritten a
  | (b, v) :: m, a => if a = b then v else Memory.read m a

/-- Put one byte into the sorted list; a byte equal to the reset contents is not listed. -/
def Memory.put (m : Memory) (a : Nat) (v : Byte) : Memory :=
  match m with
  | [] => if v = Memory.unwritten a then [] else [(a, v)]
  | (b, u) :: rest =>
    if a < b then (if v = Memory.unwritten a then m else (a, v) :: m)
    else if a = b then (if v = Memory.unwritten a then rest else (a, v) :: rest)
    else (b, u) :: Memory.put rest a v

/-- `MEM[a] <- v` (R43). There is no byte above 4095; the callers have checked (R49). -/
def Memory.write (m : Memory) (a : Nat) (v : Byte) : Memory :=
  if a < Config.memSize then Memory.put m a v else m

/-- `MEM[a] <- v, MEM[a+1] <- v', ...` in ascending order (R48). -/
def Memory.writeList (m : Memory) (a : Nat) : List Byte → Memory
  | [] => m
  | v :: vs => Memory.writeList (Memory.write m a v) (a + 1) vs

/-- The canonical form above a lower bound. -/
def Memory.wfFrom (lo : Nat) : Memory → Bool
  | [] => true
  | (a, v) :: m =>
    decide (lo ≤ a) && decide (a < Config.memSize) && decide (v ≠ Memory.unwritten a) && Memory.wfFrom (a + 1) m

/-- The canonical form: addresses strictly rising, all below 4096, no entry equal to the reset contents (log 13). -/
def Memory.wf (m : Memory) : Bool := Memory.wfFrom 0 m

/-- The lowest invalid address among the `n` addresses from `base`, if there is one: `max(base, 4096)` (R43, R49, R171). -/
def lowestInvalid (base n : Nat) : Option Word :=
  if n > 0 ∧ base + n - 1 > 4095 then some (BitVec.ofNat 16 (max base 4096)) else none

/-- `MemRead` of `n` bytes in ascending order, all addresses checked first; an error is the lowest invalid address (R43,
R49). -/
def State.readBytes (s : State) (base n : Nat) : Except Word (List Byte) :=
  match lowestInvalid base n with
  | some a => .error a
  | none => .ok ((List.range n).map fun k => Memory.read s.mem (base + k))

/-- `MemWrite` of a list of bytes in ascending order, all addresses checked first; an error is the lowest invalid address
(R43, R49). -/
def State.writeBytes (s : State) (base : Nat) (bs : List Byte) : Except Word State :=
  match lowestInvalid base bs.length with
  | some a => .error a
  | none => .ok { s with mem := Memory.writeList s.mem base bs }

/-! ## The call stack -/

/-- `STACK[j]` (R15). There is no slot outside the list, and no rule reads one; it would read 0. -/
def State.slot (s : State) (j : Nat) : Word := s.stack.getD j 0

/-- Push: `STACK[SP] <- w; SP <- SP + 1`, which requires `SP < STACK_DEPTH` (R15). -/
def State.push (depth : Nat) (w : Word) (s : State) : Option State :=
  if s.sp < depth then some { s with stack := s.stack.set s.sp w, sp := s.sp + 1 } else none

/-- Pop: `SP <- SP - 1; w = STACK[SP]`, which requires `SP > 0` (R15). The slot keeps its value and is dead. -/
def State.pop (s : State) : Option (Word × State) :=
  if 0 < s.sp then some (s.slot (s.sp - 1), { s with sp := s.sp - 1 }) else none

/-! ## Taking a fault -/

/-- FAULT ENTRY (R177), the one operation for every fault: `PC <- pc0`, `FAULT <- (1, code, pc0, instr, addr)`, nothing
else; the core is halted. There is no return from a fault beside it: no instruction leaves the halted state, only the
host's `reset` or `load` (R181; `State.hostReset`). -/
def State.takeFault (s : State) (pc0 : Word) (code : FaultCode) (instr addr : Word) : State :=
  { s with pc := pc0, fault := ⟨true, code, pc0, instr, addr⟩ }

/-- `raise` inside instruction `i`, whose word is the one fetched and whose address is `PC - 2` (R84, R177; log 11). -/
def raise (i : Instr) (code : FaultCode) (addr : Word) (s : State) : Host.Outcome State Fault Refusal :=
  .next (s.takeFault s.pc0 code (encode i) addr)

/-! ## Skips -/

/-- A skip: when the condition holds, `PC <- npc + 2` (R110). -/
def State.skipIf (s : State) (c : Bool) : State := if c then s.setPc (s.pc + 2) else s

/-! ## The display -/

/-- The display grid (R20). -/
abbrev Display := Vector (BitVec 64) 32

/-- A pixel's row and column (R20). -/
abbrev PixelPos := Fin 32 × Fin 64

/-- `DISP[y][x]` (R20). -/
def pixelAt (d : Display) (p : PixelPos) : Bool := d[p.1].getLsbD p.2.val

/-- `DISP[y][x] <- DISP[y][x] xor 1` (R151). -/
def togglePixel (d : Display) (p : PixelPos) : Display :=
  d.set p.1.val (d[p.1] ^^^ BitVec.twoPow 64 p.2.val) p.1.isLt

/-- The pixels the sprite row `b` toggles when its left end is at column `x0` of row `y`: bit `7 - c` is column `c`, and both
coordinates wrap (R152, R153; log 14). -/
def spriteRowPixels (x0 y : Nat) (b : Byte) : List PixelPos :=
  ((List.range 8).filter fun c => b.getLsbD (7 - c)).map fun c => (Fin.ofNat 32 y, Fin.ofNat 64 (x0 + c))

/-- The pixels a sprite toggles, rows from the top, columns from the left (R151). -/
def spritePixels (x0 y0 : Nat) : List Byte → List PixelPos
  | [] => []
  | b :: bs => spriteRowPixels x0 y0 b ++ spritePixels x0 (y0 + 1) bs

/-- Toggle pixels one after the other; the flag tells whether one of them went from on to off (R154). -/
def togglePixels (d : Display) (coll : Bool) : List PixelPos → Display × Bool
  | [] => (d, coll)
  | p :: ps => togglePixels (togglePixel d p) (coll || pixelAt d p) ps

/-! ## The random byte -/

/-- Draw the next random byte: a free value (R8; log 7). -/
def State.drawRandom (s : State) : Byte × State :=
  (Config.randomByte s.rndDraws, { s with rndDraws := s.rndDraws + 1 })

/-! ## Fetching -/

/-- Fetch the word at `PC`, big-endian; an error is the lowest invalid address (R44, R81). -/
def State.fetch (s : State) : Except Word Word :=
  match s.readBytes s.pc.toNat 2 with
  | .error a => .error a
  | .ok bs => .ok (joinBytes (bs.getD 0 0) (bs.getD 1 0))

/-- `PC <- pc0 + 2` after a successful fetch (R82). -/
def State.advance (s : State) : State := s.setPc (s.pc + 2)

/-- The fetch itself faulted: `MemRange`, with `instr` = 0 (R81, R177). `PC` has not advanced. -/
def State.fetchFault (s : State) (addr : Word) : State := s.takeFault s.pc .memRange 0 addr

/-- A word that is no instruction, after the advance of `PC` (R174): under `Fault` a fault with the word in `instr`, under
`Nop` nothing more. -/
def State.unknownOpcode (policy : UnknownOpcodePolicy) (w : Word) (s : State) : State :=
  match policy with
  | .fault => s.takeFault s.pc0 .unknownOpcode w 0
  | .nop => s

end Sys2Proof.Machine
end

