-- ==== Sys2Proof/Machine/Alu.lean ====
section
/-! DEFINITION. Load-immediate, arithmetic, logic, shifts and random (spec 42_alu.md). Operands are read from the state before
the instruction (R90); bit-vector sums and differences are those modulo 256 of R132. -/

namespace Sys2Proof.Machine

/-- `set-imm VX,NN` (R120). -/
def execSetImm (x : RegIdx) (nn : Byte) (s : State) : Host.Outcome State Fault Refusal :=
  .next (s.setV x nn)

/-- `add-imm VX,NN` (R121): no flag. -/
def execAddImm (x : RegIdx) (nn : Byte) (s : State) : Host.Outcome State Fault Refusal :=
  .next (s.setV x (s.V x + nn))

/-- `copy VX,VY` (R122). -/
def execCopy (x y : RegIdx) (s : State) : Host.Outcome State Fault Refusal :=
  .next (s.setV x (s.V y))

/-- `or VX,VY` (R123): no flag. -/
def execOr (x y : RegIdx) (s : State) : Host.Outcome State Fault Refusal :=
  .next (s.setV x (s.V x ||| s.V y))

/-- `and VX,VY` (R124): no flag. -/
def execAnd (x y : RegIdx) (s : State) : Host.Outcome State Fault Refusal :=
  .next (s.setV x (s.V x &&& s.V y))

/-- `xor VX,VY` (R125): no flag. -/
def execXor (x y : RegIdx) (s : State) : Host.Outcome State Fault Refusal :=
  .next (s.setV x (s.V x ^^^ s.V y))

/-- `add VX,VY` (R126). -/
def execAdd (x y : RegIdx) (s : State) : Host.Outcome State Fault Refusal :=
  .next (s.writeFlagThenResult (carryFlag (s.V x) (s.V y)) x (s.V x + s.V y))

/-- `sub VX,VY` (R127). -/
def execSub (x y : RegIdx) (s : State) : Host.Outcome State Fault Refusal :=
  .next (s.writeFlagThenResult (noBorrowFlag (s.V x) (s.V y)) x (s.V x - s.V y))

/-- `shr VX` (R128): `Y` is ignored. -/
def execShr (x : RegIdx) (s : State) : Host.Outcome State Fault Refusal :=
  .next (s.writeFlagThenResult (lowBitFlag (s.V x)) x (s.V x >>> 1))

/-- `subn VX,VY` (R129). -/
def execSubn (x y : RegIdx) (s : State) : Host.Outcome State Fault Refusal :=
  .next (s.writeFlagThenResult (noBorrowFlag (s.V y) (s.V x)) x (s.V y - s.V x))

/-- `shl VX` (R130): `Y` is ignored. -/
def execShl (x : RegIdx) (s : State) : Host.Outcome State Fault Refusal :=
  .next (s.writeFlagThenResult (highBitFlag (s.V x)) x (s.V x <<< 1))

/-- `rand VX,NN` (R131, R8). -/
def execRand (x : RegIdx) (nn : Byte) (s : State) : Host.Outcome State Fault Refusal :=
  let (rnd, t) := s.drawRandom
  .next (t.setV x (rnd &&& nn))

end Sys2Proof.Machine
end

