-- ==== Sys2Proof/Machine/Display.lean ====
section
/-! DEFINITION. The display instructions and the compositor (spec 44_display.md): `clear-screen`, `draw`. -/

namespace Sys2Proof.Machine

/-- `clear-screen` (R150). -/
def execClearScreen (s : State) : Host.Outcome State Fault Refusal :=
  .next { s with disp := Vector.replicate 32 0 }

/-- `draw VX,VY,N` (R151): the rows are read first, then the pixels toggled, then `VF` written as the collision flag; with
`N` = 0 nothing is read and `VF` is cleared. -/
def execDraw (x y : RegIdx) (n : Nibble) (s : State) : Host.Outcome State Fault Refusal :=
  match s.readBytes (s.effAddr 0) n.toNat with
  | .ok rows =>
    let drawn := togglePixels s.disp false (spritePixels ((s.V x).toNat % 64) ((s.V y).toNat % 32) rows)
    .next ({ s with disp := drawn.1 }.setFlag (flagByte drawn.2))
  | .error a => raise (.draw x y n) .memRange a s

end Sys2Proof.Machine
end

