-- ==== Sys2Proof/Machine/Flow.lean ====
section
/-! DEFINITION. Control transfer (spec 41_flow.md): `return`, `jump`, `call`, the four register skips, `jump-offset`. In every
meaning `PC` holds `npc = pc0 + 2` (R14, R82). -/

namespace Sys2Proof.Machine

/-- `return` (R100). -/
def execRet (s : State) : Host.Outcome State Fault Refusal :=
  match s.pop with
  | some (w, t) => .next (t.setPc w)
  | none => raise .ret .stackUnderflow 0 s

/-- `jump NNN` (R101). -/
def execJump (nnn : Addr12) (s : State) : Host.Outcome State Fault Refusal :=
  .next (s.setPc (zext16 nnn))

/-- `call NNN` for any `STACK_DEPTH` (R102): the value pushed is `npc`. -/
def execCallWith (P : Params) (nnn : Addr12) (s : State) : Host.Outcome State Fault Refusal :=
  match s.push P.stackDepth s.pc with
  | some t => .next (t.setPc (zext16 nnn))
  | none => raise (.call nnn) .stackOverflow 0 s

/-- `call NNN` (R102) under the default setting (log 3). -/
def execCall (nnn : Addr12) (s : State) : Host.Outcome State Fault Refusal :=
  execCallWith Config.params nnn s

/-- `skip-eq-imm VX,NN` (R103). -/
def execSkipEqImm (x : RegIdx) (nn : Byte) (s : State) : Host.Outcome State Fault Refusal :=
  .next (s.skipIf (s.V x == nn))

/-- `skip-ne-imm VX,NN` (R104). -/
def execSkipNeImm (x : RegIdx) (nn : Byte) (s : State) : Host.Outcome State Fault Refusal :=
  .next (s.skipIf (s.V x != nn))

/-- `skip-eq-reg VX,VY` (R105). -/
def execSkipEqReg (x y : RegIdx) (s : State) : Host.Outcome State Fault Refusal :=
  .next (s.skipIf (s.V x == s.V y))

/-- `skip-ne-reg VX,VY` (R106). -/
def execSkipNeReg (x y : RegIdx) (s : State) : Host.Outcome State Fault Refusal :=
  .next (s.skipIf (s.V x != s.V y))

/-- `jump-offset NNN` (R107): the sum with `V[0]` is not reduced modulo 4096. -/
def execJumpOffset (nnn : Addr12) (s : State) : Host.Outcome State Fault Refusal :=
  .next (s.setPc (zext16 nnn + zext16 (s.V 0)))

end Sys2Proof.Machine
end

