-- ==== Sys2Proof/Machine/IndexMemory.lean ====
section
/-! DEFINITION. The address register and memory (spec 43_index_memory.md): `set-I`, `add-I`, `font-char`, `store-bcd`,
`reg-dump`, `reg-load`. An access beyond 4095 takes `MemRange` and changes nothing else (R49, R171). -/

namespace Sys2Proof.Machine

/-- `set-I NNN` (R140). -/
def execSetI (nnn : Addr12) (s : State) : Host.Outcome State Fault Refusal :=
  .next (s.setI (zext16 nnn))

/-- `add-I VX` (R141): modulo 65536, no flag. -/
def execAddI (x : RegIdx) (s : State) : Host.Outcome State Fault Refusal :=
  .next (s.setI (s.iReg + zext16 (s.V x)))

/-- `font-char VX` (R142): the whole byte times 5. -/
def execFontChar (x : RegIdx) (s : State) : Host.Outcome State Fault Refusal :=
  .next (s.setI (zext16 (s.V x) * BitVec.ofNat 16 Config.glyphBytes))

/-- `store-bcd VX` (R143). -/
def execStoreBcd (x : RegIdx) (s : State) : Host.Outcome State Fault Refusal :=
  match s.writeBytes (s.effAddr 0) (bcdDigits (s.V x)) with
  | .ok t => .next t
  | .error a => raise (.storeBcd x) .memRange a s

/-- `I` after `reg-dump` and `reg-load`: `(I + X + 1) mod 65536` (R144, R145). -/
def advancedI (s : State) (x : RegIdx) : Word := s.iReg + zext16 x + 1

/-- `reg-dump VX` (R144): `X` is an index and so a count. -/
def execRegDump (x : RegIdx) (s : State) : Host.Outcome State Fault Refusal :=
  match s.writeBytes (s.effAddr 0) (s.regsUpTo x) with
  | .ok t => .next (t.setI (advancedI s x))
  | .error a => raise (.regDump x) .memRange a s

/-- `reg-load VX` (R145). -/
def execRegLoad (x : RegIdx) (s : State) : Host.Outcome State Fault Refusal :=
  match s.readBytes (s.effAddr 0) (x.toNat + 1) with
  | .ok bs => .next ((s.loadRegs bs).setI (advancedI s x))
  | .error a => raise (.regLoad x) .memRange a s

end Sys2Proof.Machine
end

