-- ==== Sys2Proof/Machine/KeysTimers.lean ====
section
/-! DEFINITION. Keypad and timers (spec 45_keys_timers.md): the key skips, `wait-key`, `get-delay`, `set-delay`,
`set-sound`. -/

namespace Sys2Proof.Machine

/-- What both key skips share: a value above 15 takes `KeyRange` (R166), else skip when the key's level is `want` (R160,
R161). -/
def keySkip (i : Instr) (x : RegIdx) (want : Bool) (s : State) : Host.Outcome State Fault Refusal :=
  if (s.V x).toNat > 15 then raise i .keyRange 0 s
  else .next (s.skipIf (s.keyDown ((s.V x).setWidth 4) == want))

/-- `skip-key-pressed VX` (R160). -/
def execSkipKeyPressed (x : RegIdx) (s : State) : Host.Outcome State Fault Refusal :=
  keySkip (.skipKeyPressed x) x true s

/-- `skip-key-released VX` (R161). -/
def execSkipKeyReleased (x : RegIdx) (s : State) : Host.Outcome State Fault Refusal :=
  keySkip (.skipKeyReleased x) x false s

/-- `get-delay VX` (R162). -/
def execGetDelay (x : RegIdx) (s : State) : Host.Outcome State Fault Refusal :=
  .next (s.setV x s.dt)

/-- `wait-key VX` for any `KEY_PICK` (R163): with no key down `PC` goes back to this instruction, else `V[X]` is the key
picked from those down. -/
def waitKeyWith (pick : List KeyCode → KeyCode) (x : RegIdx) (s : State) : State :=
  match s.keysDown with
  | [] => s.setPc s.pc0
  | k :: ks => s.setV x ((pick (k :: ks)).setWidth 8)

/-- `wait-key VX` for any parameters (R163, R6(d)). -/
def execWaitKeyWith (P : Params) (x : RegIdx) (s : State) : Host.Outcome State Fault Refusal :=
  .next (waitKeyWith P.keyPick x s)

/-- `wait-key VX` (R163) under the default setting (log 6). -/
def execWaitKey (x : RegIdx) (s : State) : Host.Outcome State Fault Refusal :=
  execWaitKeyWith Config.params x s

/-- `set-delay VX` (R164). -/
def execSetDelay (x : RegIdx) (s : State) : Host.Outcome State Fault Refusal :=
  .next { s with dt := s.V x }

/-- `set-sound VX` (R165). -/
def execSetSound (x : RegIdx) (s : State) : Host.Outcome State Fault Refusal :=
  .next { s with st := s.V x }

end Sys2Proof.Machine
end

