-- ==== Sys2Proof/Machine/Parameters.lean ====
section
/-! DEFINITION. The core with its parameters as an argument (spec R6): executing an instruction and one step (R80 to R86). Only
`call`, `wait-key` and an unknown word depend on a parameter. -/

namespace Sys2Proof.Machine

/-- Execute an instruction under any parameters: `call` looks at `STACK_DEPTH`, `wait-key` at `KEY_PICK`, and the other
instructions at none. -/
def execWith (P : Params) (i : Instr) (s : State) : Host.Outcome State Fault Refusal :=
  match i with
  | .call nnn => execCallWith P nnn s
  | .waitKey x => execWaitKeyWith P x s
  | .clearScreen | .ret | .jump _ | .skipEqImm _ _ | .skipNeImm _ _ | .skipEqReg _ _ | .setImm _ _ | .addImm _ _
  | .copyReg _ _ | .orReg _ _ | .andReg _ _ | .xorReg _ _ | .addReg _ _ | .subReg _ _ | .shrReg _ _ | .subnReg _ _
  | .shlReg _ _ | .skipNeReg _ _ | .setI _ | .jumpOffset _ | .rand _ _ | .draw _ _ _ | .skipKeyPressed _
  | .skipKeyReleased _ | .getDelay _ | .setDelay _ | .setSound _ | .addI _ | .fontChar _ | .storeBcd _ | .regDump _
  | .regLoad _ => exec i s

/-- `step()` under any parameters (R80): a halted core answers itself (R85; log 2); else fetch (R81), advance `PC` (R82),
decode (R83) and execute (R84), or take the fault of a failed fetch, or do with an unknown word what the policy says (R174,
R179). -/
def stepWith (P : Params) (s : State) : Host.Outcome State Fault Refusal :=
  if s.fault.valid then .next s
  else
    match s.fetch with
    | .error a => .next (s.fetchFault a)
    | .ok w =>
      match decode w with
      | .ok i => execWith P i s.advance
      | .error _ => .next (s.advance.unknownOpcode P.unknownOpcodePolicy w)

end Sys2Proof.Machine
end

