-- ==== Sys2Proof/Machine/Step.lean ====
section
/-! DEFINITION. One step of the core (spec R80 to R86), and placing an instruction where the next step fetches it. -/

namespace Sys2Proof.Machine

/-- `step()` (R80) under the default setting of the parameters (R6; log 20). -/
def step (s : State) : Host.Outcome State Fault Refusal := stepWith Config.params s

/-- The instruction whose bits are the `nbits`-bit number `w`, stored big-endian where `step` fetches next: at `PC` and
`PC + 1` (R44, R81). It stands for the placement that the host's `load` does (R192; log 12); a core that is halted or whose
`PC` is above 4094 still fetches nothing. -/
def State.withFetchWord (s : State) (nbits w : Nat) : State :=
  { s with mem := Memory.writeList s.mem s.pc.toNat (wordBytes (BitVec.ofNat 16 (w % 2 ^ nbits))) }

end Sys2Proof.Machine
end

