-- ==== Sys2Proof/Machine/HostOps.lean ====
section
/-! DEFINITION. The host's transactions (spec R4, R7): the report of a step, `tick`, `key_press`, `key_release`, `reset`, `load`
and the display view; and any interleaving of them (R7, R198; log 16). Those that depend on a parameter of R6 take
the parameters as an argument. -/

namespace Sys2Proof.Machine

/-- What `step()` returns to the host (R86). -/
inductive StepReport where
  | ok
  | fault (code : FaultCode) (pc instr addr : Word)
  deriving DecidableEq, Repr

/-- The report that goes with the state a step leaves: the fields of `FAULT` when it is set, else `Ok` (R21, R86, R177). -/
def State.report (s : State) : StepReport :=
  if s.fault.valid then .fault s.fault.code s.fault.pc s.fault.instr s.fault.addr else .ok

/-- A timer one tick later: it counts down and stops at 0 (R87). -/
def countDown (b : Byte) : Byte := if b = 0 then 0 else b - 1

/-- `tick()` (R87), legal in every state. -/
def State.tick (s : State) : State := { s with dt := countDown s.dt, st := countDown s.st }

/-- `KEY[k] <- b`. -/
def State.setKey (s : State) (k : KeyCode) (b : Bool) : State := { s with key := s.key.set k.toNat b k.isLt }

/-- `key_press(k)` (R88), legal in every state. -/
def State.keyPress (s : State) (k : KeyCode) : State := s.setKey k true

/-- `key_release(k)` (R89), legal in every state. -/
def State.keyRelease (s : State) (k : KeyCode) : State := s.setKey k false

/-- `reset()` (R190): every piece of state of the spec to its reset value, whatever it was. Only the model's own count of
random bytes goes on, so that the bytes drawn after a reset are again fresh free values (log 7). -/
def State.hostReset (P : Params) (s : State) : State := { State.resetWith P with rndDraws := s.rndDraws }

/-- What `load` returns (R192). -/
inductive LoadReport where
  | ok
  | loadTooLarge
  deriving DecidableEq, Repr

/-- `load(image, len)` (R192, R193): a reset, then the image at 0x200 if it is not too long; `len` is the length of the
list. -/
def State.load (P : Params) (s : State) (image : List Byte) : LoadReport × State :=
  if image.length > Config.maxImage then (.loadTooLarge, s.hostReset P)
  else (.ok, { s.hostReset P with mem := Memory.writeList (s.hostReset P).mem Config.progBase image })

/-- The read-only view of the display: the pixel of row `y` and column `x` (R9, R155). -/
def State.displayView (s : State) (y : Fin 32) (x : Fin 64) : Bool := pixelAt s.disp (y, x)

/-- The transactions that change the state (R4). -/
inductive Transaction where
  | step
  | tick
  | keyPress (k : KeyCode)
  | keyRelease (k : KeyCode)
  | reset
  | load (image : List Byte)
  deriving DecidableEq, Repr

/-- The state after one transaction, each atomic (R7). A step always answers a next state, so its other outcomes, which keep
the state here, do not arise. -/
def State.transact (P : Params) (s : State) : Transaction → State
  | .step =>
    match stepWith P s with
    | .next t => t
    | .fault _ => s
    | .refused _ => s
  | .tick => s.tick
  | .keyPress k => s.keyPress k
  | .keyRelease k => s.keyRelease k
  | .reset => s.hostReset P
  | .load image => (s.load P image).2

/-- The state after the host's transactions in the order it chose (R7, R198). -/
def State.transactAll (P : Params) (s : State) : List Transaction → State
  | [] => s
  | e :: es => State.transactAll P (s.transact P e) es

end Sys2Proof.Machine
end

