-- ==== Sys2Proof/Safety.lean ====
section
/-! DEFINITION. What claims about runs are stated in: the invariant of the machine, what an instruction leaves alone, which fault
an instruction can raise, which pixels a sprite covers. -/

namespace Sys2Proof.Machine

/-- The word in memory at `PC`, or 0 where there is none: what `FAULT.instr` holds (R21, R44). -/
def State.wordAtPc (s : State) : Word :=
  if s.pc.toNat ≤ 4094 then joinBytes (Memory.read s.mem s.pc.toNat) (Memory.read s.mem (s.pc.toNat + 1)) else 0

/-- THE INVARIANT, which reset meets and every transaction keeps. `PC` and `I` have no part in it: they may hold any 16-bit
value (R23). The number of stack slots is the parameter's. -/
structure State.Inv (P : Params) (s : State) : Prop where
  /-- Memory keeps its canonical form: 4096 bytes and no other address (R19, R40). -/
  memory : s.mem.wf = true
  /-- There are `STACK_DEPTH` slots (R15). -/
  slots : s.stack.length = P.stackDepth
  /-- The stack depth never exceeds the configured maximum (R15, R23). -/
  depth : s.sp ≤ P.stackDepth
  /-- Every live return address is one a `call` could push, at most 4096 (R82, R100). -/
  returnAddresses : ∀ j, j < s.sp → (s.slot j).toNat ≤ 4096
  /-- A running core has a clear fault record (R21, R24). -/
  running : s.fault.valid = false → s.fault = FaultRecord.clear
  /-- A halted core has a cause (R170). -/
  cause : s.fault.valid = true → s.fault.code ≠ .none
  /-- A halted core points at the faulting instruction (R177). -/
  faultPc : s.fault.valid = true → s.fault.pc = s.pc
  /-- The record holds the faulting instruction's word, 0 for a fetch fault (R21). -/
  faultInstr : s.fault.valid = true → s.fault.instr = s.wordAtPc
  /-- Only a memory-range fault has an address, and it lies outside the memory (R170, R171). -/
  faultAddr : s.fault.valid = true →
    (s.fault.code = .memRange → 4096 ≤ s.fault.addr.toNat) ∧ (s.fault.code ≠ .memRange → s.fault.addr = 0)

/-- What an instruction may write apart from `PC`. The bytes are a first address and a count. -/
structure Footprint where
  regs : List RegIdx := []
  addrReg : Bool := false
  stack : Bool := false
  delay : Bool := false
  sound : Bool := false
  display : Bool := false
  random : Bool := false
  bytes : Nat × Nat := (0, 0)

/-- From `s` to `t` nothing but `PC` and the footprint changes (R91): every other register, every other piece of state, the
key flags, the fault record, and every byte of memory outside the bytes. -/
structure Unchanged (f : Footprint) (s t : State) : Prop where
  regs : ∀ r, r ∉ f.regs → t.V r = s.V r
  addrReg : f.addrReg = false → t.iReg = s.iReg
  sp : f.stack = false → t.sp = s.sp
  stack : f.stack = false → t.stack = s.stack
  delay : f.delay = false → t.dt = s.dt
  sound : f.sound = false → t.st = s.st
  display : f.display = false → t.disp = s.disp
  random : f.random = false → t.rndDraws = s.rndDraws
  bytes : ∀ a, a < f.bytes.1 ∨ f.bytes.1 + f.bytes.2 ≤ a → Memory.read t.mem a = Memory.read s.mem a
  key : t.key = s.key
  fault : t.fault = s.fault

/-- The one fault each instruction can raise when it executes (R179). -/
def faultCause : Instr → Option FaultCode
  | .ret => some .stackUnderflow
  | .call _ => some .stackOverflow
  | .draw _ _ _ | .storeBcd _ | .regDump _ | .regLoad _ => some .memRange
  | .skipKeyPressed _ | .skipKeyReleased _ => some .keyRange
  | .clearScreen | .jump _ | .skipEqImm _ _ | .skipNeImm _ _ | .skipEqReg _ _ | .setImm _ _ | .addImm _ _
  | .copyReg _ _ | .orReg _ _ | .andReg _ _ | .xorReg _ _ | .addReg _ _ | .subReg _ _ | .shrReg _ _ | .subnReg _ _
  | .shlReg _ _ | .skipNeReg _ _ | .setI _ | .jumpOffset _ | .rand _ _ | .getDelay _ | .waitKey _ | .setDelay _
  | .setSound _ | .addI _ | .fontChar _ => none

/-- The sprite of `n` rows at `I`, drawn at `(V[X] mod 64, V[Y] mod 32)`, covers the pixel of row `p.1` and column `p.2`: a
1 bit of row `r`, bit `7 - c`, lands there, both coordinates wrapping (R151 to R153). -/
def SpriteCovers (s : State) (x y : RegIdx) (n : Nibble) (p : PixelPos) : Prop :=
  ∃ r c : Nat, r < n.toNat ∧ c < 8 ∧ (Memory.read s.mem (s.iReg.toNat + r)).getLsbD (7 - c) = true ∧
    p.1.val = ((s.V y).toNat % 32 + r) % 32 ∧ p.2.val = ((s.V x).toNat % 64 + c) % 64

end Sys2Proof.Machine
end

