-- ==== Sys2Proof/Certificates/Slice0/Obligations.lean ====
section
/-! DEFINITION. The statements for the provers, each from the numbered rules of spec/. In a statement about `exec`, the state
given has `PC` = `npc`, two past the instruction (R82, R84). Log entries are named where a clause is the model's choice. -/

open Sys2Proof Sys2Proof.Machine

/-! ## Encoding -/

/-- No operand bit is dropped: every instruction, whatever its operands, is read back from its word (R61 to R69; the numeric
encoding is the spec's decision D2, log 9). -/
def Obligations.DecodeOfEncodeIsTheInstruction : Prop :=
  ∀ i : Instr, decode (encode i) = .ok i

/-- The other direction: a word that decodes is the word of its instruction, so no bit of an accepted word is lost, the
ignored `Y` of `shr` and `shl` included (R67, R72; log 17). -/
def Obligations.EncodeOfDecodedWordIsTheWord : Prop :=
  ∀ (w : Word) (i : Instr), decode w = .ok i → encode i = w

/-- The two-level dispatch agrees with the opcode table: a word decodes to an operation exactly when it has the fixed bits
of that operation's row (R64 to R69, R75). -/
def Obligations.DecodeFollowsTheOpcodeTable : Prop :=
  ∀ (w : Word) (m : Mnemonic), (∃ i, decode w = .ok i ∧ i.mnemonic = m) ↔ m.matchesWord w = true

/-- The unknown words are exactly those R70 lists, family by family, with the fields computed on the number. -/
def Obligations.UnknownWordsAreThoseOfTheList : Prop :=
  ∀ w : Word, (∃ e, decode w = .error e) ↔
    (w.toNat / 4096 = 0x0 ∧ w.toNat ≠ 0x00E0 ∧ w.toNat ≠ 0x00EE) ∨
    ((w.toNat / 4096 = 0x5 ∨ w.toNat / 4096 = 0x9) ∧ w.toNat % 16 ≠ 0) ∨
    (w.toNat / 4096 = 0x8 ∧ w.toNat % 16 ∈ [0x8, 0x9, 0xA, 0xB, 0xC, 0xD, 0xF]) ∨
    (w.toNat / 4096 = 0xE ∧ w.toNat % 256 ∉ [0x9E, 0xA1]) ∨
    (w.toNat / 4096 = 0xF ∧ w.toNat % 256 ∉ [0x07, 0x0A, 0x15, 0x18, 0x1E, 0x29, 0x33, 0x55, 0x65])

/-- Each operand is read from its own field of the word, by the format (R61, R62, R63; `shr` and `shl` have the one operand
`X`, R73). -/
def Obligations.OperandsSitInTheirFields : Prop :=
  ∀ (w : Word) (i : Instr), decode w = .ok i → i.operands =
    (match i.mnemonic.format with
      | .Z => []
      | .A => [w.toNat % 4096]
      | .XK => [w.toNat / 256 % 16, w.toNat % 256]
      | .XY => [w.toNat / 256 % 16, w.toNat / 16 % 16]
      | .XYN => [w.toNat / 256 % 16, w.toNat / 16 % 16, w.toNat % 16]
      | .XS => [w.toNat / 256 % 16]).take i.mnemonic.operandKinds.length

/-- Words written out from the spec's encodings, one at least for each family, decode to the instructions they stand for,
and near misses do not (vectors of 95_test_vectors.md). -/
def Obligations.SpecWordsDecodeAsWritten : Prop :=
  decode 0x00E0 = .ok .clearScreen ∧ decode 0x00EE = .ok .ret ∧ decode 0x1234 = .ok (.jump 0x234) ∧
  decode 0x2210 = .ok (.call 0x210) ∧ decode 0x4308 = .ok (.skipNeImm 3 8) ∧ decode 0x5120 = .ok (.skipEqReg 1 2) ∧
  decode 0x632A = .ok (.setImm 3 0x2A) ∧ decode 0x8127 = .ok (.subnReg 1 2) ∧ decode 0x81FE = .ok (.shlReg 1 15) ∧
  decode 0xA300 = .ok (.setI 0x300) ∧ decode 0xC20F = .ok (.rand 2 0x0F) ∧ decode 0xD012 = .ok (.draw 0 1 2) ∧
  decode 0xE1A1 = .ok (.skipKeyReleased 1) ∧ decode 0xF355 = .ok (.regDump 3) ∧
  decode 0x01E0 = .error .unknownSystemWord ∧ decode 0x9AB1 = .error .unknownCompareSelector ∧
  decode 0x8128 = .error .unknownAluSelector ∧ decode 0xF156 = .error .unknownMiscSelector

/-- The assembler (R73, D20; log 18): a line whose operands fit their fields has the instruction with that operation and
those operands, `shr` and `shl` with `Y` = 0; a line whose operands do not fit has none. -/
def Obligations.AssemblerAcceptsExactlyTheLinesThatFit : Prop :=
  ∀ l : AsmLine,
    (l.wf = true → ∃ i, assemble l = .ok i ∧ i.mnemonic = l.mnemonic ∧ i.operands = l.operands ∧
      (l.mnemonic = .shrReg ∨ l.mnemonic = .shlReg → (encode i).toNat / 16 % 16 = 0)) ∧
    (l.wf = false → ∀ i, assemble l ≠ .ok i)

/-! ## The step and its faults -/

/-- A step of a running core whose word decodes is `exec` of that instruction on the state with `PC` advanced by 2, and
nothing else (R80 to R84). -/
def Obligations.StepRunsTheDecodedInstruction : Prop :=
  ∀ (s : State) (i : Instr), s.fault.valid = false → s.pc.toNat ≤ 4094 →
    decode (joinBytes (Memory.read s.mem s.pc.toNat) (Memory.read s.mem (s.pc.toNat + 1))) = .ok i →
    step s = exec i (s.setPc (s.pc + 2))

/-- Fetch (R81): it succeeds exactly when `PC` is at most 4094, at any parity, and gives the byte at `PC` high and the byte
at `PC + 1` low; at 4095 it raises `MemRange(4096)` and above `MemRange(PC)`, with `instr` = 0. That the step
answers a next state with the record, `PC` and the rest unchanged, is R177 (D9, D10; log 1). -/
def Obligations.FetchSucceedsExactlyUpTo4094 : Prop :=
  ∀ s : State,
    (s.pc.toNat ≤ 4094 → ∃ w, s.fetch = .ok w ∧
      w.toNat = 256 * (Memory.read s.mem s.pc.toNat).toNat + (Memory.read s.mem (s.pc.toNat + 1)).toNat) ∧
    (s.fault.valid = false → s.pc.toNat = 4095 →
      step s = .next { s with fault := ⟨true, .memRange, s.pc, 0, 4096⟩ }) ∧
    (s.fault.valid = false → 4096 ≤ s.pc.toNat →
      step s = .next { s with fault := ⟨true, .memRange, s.pc, 0, s.pc⟩ })

/-- An unknown word (R174; D5), under both policies: under `Fault` the step raises `UnknownOpcode` with the word in `instr` and
changes nothing else; under `Nop` it only advances `PC`. The machine behind `step` has the policy `Fault` (log 4). -/
def Obligations.UnknownOpcodeFollowsThePolicy : Prop :=
  ∀ (P : Params) (s : State) (w : Word) (e : DecodeError), s.fault.valid = false → s.fetch = .ok w → decode w = .error e →
    (P.unknownOpcodePolicy = .fault → stepWith P s = .next { s with fault := ⟨true, .unknownOpcode, s.pc, w, 0⟩ }) ∧
    (P.unknownOpcodePolicy = .nop → stepWith P s = .next { s with pc := s.pc + 2 }) ∧
    step s = .next { s with fault := ⟨true, .unknownOpcode, s.pc, w, 0⟩ }

/-- A halted core: a step changes nothing and reports the recorded fault again (R85, R178; D10, log 2). -/
def Obligations.HaltedStepChangesNothing : Prop :=
  ∀ s : State, s.fault.valid = true →
    step s = .next s ∧ s.report = .fault s.fault.code s.fault.pc s.fault.instr s.fault.addr

/-- Every step of every state returns to the host with a next state, whose report is `Ok` or the recorded fault (R80, R86;
logs 1 and 2). -/
def Obligations.EveryStepAnswersANextState : Prop :=
  ∀ s : State, ∃ t, step s = .next t ∧
    (t.report = .ok ∨ ∃ c p w a, t.report = .fault c p w a ∧ t.fault = ⟨true, c, p, w, a⟩)

/-- FAULTS ARE PRECISE (R84, R177; D9): when a step of a running core ends halted, nothing has changed but `FAULT`, `PC`
still points at the faulting instruction, and the record holds its address and its word, 0 for a failed fetch. -/
def Obligations.FaultingStepChangesOnlyTheFaultRecord : Prop :=
  ∀ s t : State, s.fault.valid = false → step s = .next t → t.fault.valid = true →
    t = { s with fault := t.fault } ∧ t.fault.pc = s.pc ∧ t.fault.instr = s.wordAtPc

/-- Which fault an instruction can raise (R170, R179): its own one cause or none, and then the record has `pc0` = `PC` - 2
and the instruction's word; without a fault the record is left alone. -/
def Obligations.EachInstructionRaisesOnlyItsOwnFault : Prop :=
  ∀ (i : Instr) (s t : State), exec i s = .next t →
    t.fault = s.fault ∨
      ∃ c, faultCause i = some c ∧ t.fault.valid = true ∧ t.fault.code = c ∧ t.fault.pc = s.pc - 2 ∧
        t.fault.instr = encode i

/-- Where the key skips raise `KeyRange` (R166, R175; D14): `V[X]` above 15. -/
def Obligations.KeyCodeAbove15Faults : Prop :=
  ∀ (x : RegIdx) (s : State), 15 < (s.V x).toNat →
    exec (.skipKeyPressed x) s = .next (s.takeFault (s.pc - 2) .keyRange (encode (.skipKeyPressed x)) 0) ∧
    exec (.skipKeyReleased x) s = .next (s.takeFault (s.pc - 2) .keyRange (encode (.skipKeyReleased x)) 0)

/-! ## The invariant -/

/-- The state after reset meets the invariant, whatever the parameters (R24, R190). -/
def Obligations.ResetMeetsTheInvariant : Prop :=
  State.reset.Inv Config.params ∧ ∀ P : Params, (State.resetWith P).Inv P

/-- EVERY STEP KEEPS THE INVARIANT: memory stays canonical, the stack depth never exceeds the maximum, every live return address
is one a `call` pushed, the fault record is clear or describes the instruction at `PC` (R15, R19, R21, R23, R100, R177). -/
def Obligations.EveryStepKeepsTheInvariant : Prop :=
  ∀ s t : State, s.Inv Config.params → step s = .next t → t.Inv Config.params

/-- EVERY INTERLEAVING KEEPS THE INVARIANT, under any parameters (R6): whatever transactions the host calls and in whatever order
(R7, R198; log 16). -/
def Obligations.EveryInterleavingKeepsTheInvariant : Prop :=
  ∀ (P : Params) (es : List Transaction) (s : State), s.Inv P → (s.transactAll P es).Inv P

/-! ## Whole-machine rules: who writes what -/

/-- Memory is written by `store-bcd` and `reg-dump` alone (R47). -/
def Obligations.OnlyStoreInstructionsWriteMemory : Prop :=
  ∀ (i : Instr) (s t : State), exec i s = .next t → (∀ x, i ≠ .storeBcd x) → (∀ x, i ≠ .regDump x) → t.mem = s.mem

/-- No instruction writes a key flag; `DT` is written by `set-delay` alone and `ST` by `set-sound` alone (R16, R17, R18,
R91). -/
def Obligations.OnlySetDelayAndSetSoundWriteTimers : Prop :=
  ∀ (i : Instr) (s t : State), exec i s = .next t →
    t.key = s.key ∧ ((∀ x, i ≠ .setDelay x) → t.dt = s.dt) ∧ ((∀ x, i ≠ .setSound x) → t.st = s.st)

/-- The display is written by `clear-screen` and `draw` alone, the stack and `SP` by `call` and `return` alone, and only
`rand` draws a random byte (R15, R20, R8). -/
def Obligations.OnlyTheirInstructionsWriteDisplayAndStack : Prop :=
  ∀ (i : Instr) (s t : State), exec i s = .next t →
    (i ≠ .clearScreen → (∀ x y n, i ≠ .draw x y n) → t.disp = s.disp) ∧
    (i ≠ .ret → (∀ nnn, i ≠ .call nnn) → t.sp = s.sp ∧ t.stack = s.stack) ∧
    ((∀ x nn, i ≠ .rand x nn) → t.rndDraws = s.rndDraws)

/-- `I` is written by `set-I`, `add-I`, `font-char`, `reg-dump` and `reg-load` alone (R12). -/
def Obligations.OnlyFiveInstructionsWriteTheAddressRegister : Prop :=
  ∀ (i : Instr) (s t : State), exec i s = .next t →
    (∀ nnn, i ≠ .setI nnn) → (∀ x, i ≠ .addI x) → (∀ x, i ≠ .fontChar x) → (∀ x, i ≠ .regDump x) →
    (∀ x, i ≠ .regLoad x) → t.iReg = s.iReg

/-- `VF` changes only in the six flag writers, or where register 15 is the destination named, or in `reg-load` of all 16
registers (R11, R91). -/
def Obligations.OnlyFlagWritersAndNamedDestinationsChangeVF : Prop :=
  ∀ (i : Instr) (s t : State), exec i s = .next t → t.V 15 ≠ s.V 15 →
    (∃ x y, i = .addReg x y ∨ i = .subReg x y ∨ i = .shrReg x y ∨ i = .subnReg x y ∨ i = .shlReg x y) ∨
    (∃ x y n, i = .draw x y n) ∨
    (∃ nn, i = .setImm 15 nn ∨ i = .addImm 15 nn ∨ i = .rand 15 nn) ∨
    (∃ y, i = .copyReg 15 y ∨ i = .orReg 15 y ∨ i = .andReg 15 y ∨ i = .xorReg 15 y) ∨
    i = .getDelay 15 ∨ i = .waitKey 15 ∨ i = .regLoad 15

/-- Where `PC` is after an instruction that raises no fault (R14): `npc`, but for the jumps, `call`, `return`, the taken
skips and a `wait-key` with no key down. -/
def Obligations.ProgramCounterAfterEachInstruction : Prop :=
  ∀ (i : Instr) (s t : State), s.fault.valid = false → exec i s = .next t → t.fault.valid = false →
    match i with
    | .jump nnn => t.pc.toNat = nnn.toNat
    | .call nnn => t.pc.toNat = nnn.toNat
    | .jumpOffset nnn => t.pc.toNat = nnn.toNat + (s.V 0).toNat
    | .ret => t.pc = s.slot (s.sp - 1)
    | .skipEqImm x nn => t.pc = if s.V x = nn then s.pc + 2 else s.pc
    | .skipNeImm x nn => t.pc = if s.V x ≠ nn then s.pc + 2 else s.pc
    | .skipEqReg x y => t.pc = if s.V x = s.V y then s.pc + 2 else s.pc
    | .skipNeReg x y => t.pc = if s.V x ≠ s.V y then s.pc + 2 else s.pc
    | .skipKeyPressed _ => t.pc = s.pc ∨ t.pc = s.pc + 2
    | .skipKeyReleased _ => t.pc = s.pc ∨ t.pc = s.pc + 2
    | .waitKey _ => t.pc = if ∃ k, s.keyDown k = true then s.pc else s.pc - 2
    | _ => t.pc = s.pc

/-- NOTHING READS THE SOUND TIMER (R17): two states that differ in `ST` alone step to states that differ in `ST` alone. -/
def Obligations.NoStepReadsTheSoundTimer : Prop :=
  ∀ (s : State) (b : Byte), ∃ t u, step s = .next t ∧ step { s with st := b } = .next u ∧ u = { t with st := u.st }

/-- DEAD STACK SLOTS ARE UNOBSERVABLE (R15, R24, U9; the reset value log 8 gives them cannot be seen): two states that
differ in dead slots alone step to states that differ in dead slots alone. -/
def Obligations.DeadStackSlotsAreUnobservable : Prop :=
  ∀ (s : State) (slots : List Word), slots.length = s.stack.length →
    (∀ j, j < s.sp → State.slot { s with stack := slots } j = s.slot j) →
    ∃ t u, step s = .next t ∧ step { s with stack := slots } = .next u ∧ u = { t with stack := u.stack } ∧
      ∀ j, j < t.sp → u.slot j = t.slot j

/-- FETCH IS COHERENT WITH STORES (R52): when a running core executes `reg-dump V1` whose two bytes land on the next
instruction, the next step executes the word just stored, `V[0]` high and `V[1]` low. -/
def Obligations.StoredWordIsTheNextInstruction : Prop :=
  ∀ (s t : State) (i : Instr), s.mem.wf = true → s.fault.valid = false → s.fetch = .ok (encode (.regDump 1)) →
    s.pc.toNat ≤ 4092 → s.iReg = s.pc + 2 → decode (joinBytes (s.V 0) (s.V 1)) = .ok i → step s = .next t →
    step t = exec i (t.setPc (s.pc + 4))

/-! ## Arithmetic, logic, shifts, random -/

/-- `set-imm` and `add-imm` (R120, R121): the destination register alone changes; the sum wraps modulo 256 and there is no
flag. -/
def Obligations.ImmediateFormsWriteTheirRegisterAlone : Prop :=
  ∀ (x : RegIdx) (nn : Byte) (s : State),
    (∃ t, exec (.setImm x nn) s = .next t ∧ t.V x = nn ∧ t.pc = s.pc ∧ Unchanged { regs := [x] } s t) ∧
    (∃ t, exec (.addImm x nn) s = .next t ∧ (t.V x).toNat = ((s.V x).toNat + nn.toNat) % 256 ∧ t.pc = s.pc ∧
      Unchanged { regs := [x] } s t)

/-- `copy`, `or`, `and`, `xor` (R122 to R125): bit by bit, no flag, the destination register alone changes. -/
def Obligations.CopyAndLogicAreBitwiseWithoutFlags : Prop :=
  ∀ (x y : RegIdx) (s : State),
    (∃ t, exec (.copyReg x y) s = .next t ∧ t.V x = s.V y ∧ t.pc = s.pc ∧ Unchanged { regs := [x] } s t) ∧
    (∃ t, exec (.orReg x y) s = .next t ∧ t.pc = s.pc ∧ Unchanged { regs := [x] } s t ∧
      ∀ k, (t.V x).getLsbD k = ((s.V x).getLsbD k || (s.V y).getLsbD k)) ∧
    (∃ t, exec (.andReg x y) s = .next t ∧ t.pc = s.pc ∧ Unchanged { regs := [x] } s t ∧
      ∀ k, (t.V x).getLsbD k = ((s.V x).getLsbD k && (s.V y).getLsbD k)) ∧
    (∃ t, exec (.xorReg x y) s = .next t ∧ t.pc = s.pc ∧ Unchanged { regs := [x] } s t ∧
      ∀ k, (t.V x).getLsbD k = ((s.V x).getLsbD k ^^ (s.V y).getLsbD k))

/-- `add` (R126, R90): the sum modulo 256 and the carry, both from the registers before the instruction. With `X` = 15 the
result remains and the flag is lost (D12, log 10). -/
def Obligations.AddGivesSumAndCarry : Prop :=
  ∀ (x y : RegIdx) (s : State), ∃ t, exec (.addReg x y) s = .next t ∧ t.pc = s.pc ∧
    Unchanged { regs := [x, 15] } s t ∧ (t.V x).toNat = ((s.V x).toNat + (s.V y).toNat) % 256 ∧
    (x ≠ 15 → t.V 15 = if (s.V x).toNat + (s.V y).toNat > 255 then 1 else 0)

/-- `sub` and `subn` (R127, R129, R90): the difference modulo 256, and `VF` = 1 for no borrow, equality included. With `X` =
15 the result remains and the flag is lost (D12, log 10). -/
def Obligations.SubtractionsGiveDifferenceAndNoBorrow : Prop :=
  ∀ (x y : RegIdx) (s : State),
    (∃ t, exec (.subReg x y) s = .next t ∧ t.pc = s.pc ∧ Unchanged { regs := [x, 15] } s t ∧
      ((t.V x).toNat : Int) = ((s.V x).toNat - (s.V y).toNat : Int) % 256 ∧
      (x ≠ 15 → t.V 15 = if (s.V x).toNat ≥ (s.V y).toNat then 1 else 0)) ∧
    (∃ t, exec (.subnReg x y) s = .next t ∧ t.pc = s.pc ∧ Unchanged { regs := [x, 15] } s t ∧
      ((t.V x).toNat : Int) = ((s.V y).toNat - (s.V x).toNat : Int) % 256 ∧
      (x ≠ 15 → t.V 15 = if (s.V y).toNat ≥ (s.V x).toNat then 1 else 0))

/-- `shr` and `shl` (R128, R130, R90): `V[X]` itself is shifted by one, whatever the `Y` field, and `VF` is the bit shifted
out, captured before the shift. With `X` = 15 the result remains (D12, log 10). -/
def Obligations.ShiftsMoveVXByOneAndIgnoreY : Prop :=
  ∀ (x y : RegIdx) (s : State),
    (∃ t, exec (.shrReg x y) s = .next t ∧ t.pc = s.pc ∧ Unchanged { regs := [x, 15] } s t ∧
      (t.V x).toNat = (s.V x).toNat / 2 ∧ (x ≠ 15 → (t.V 15).toNat = (s.V x).toNat % 2)) ∧
    (∃ t, exec (.shlReg x y) s = .next t ∧ t.pc = s.pc ∧ Unchanged { regs := [x, 15] } s t ∧
      (t.V x).toNat = (s.V x).toNat * 2 % 256 ∧ (x ≠ 15 → (t.V 15).toNat = (s.V x).toNat / 128))

/-- `rand` (R131, R8): the result is the next random byte masked with `NN`, so a bit that is 0 in `NN` is 0, whatever the
byte (a free value, log 7); no flag. -/
def Obligations.RandMasksAFreshFreeByte : Prop :=
  ∀ (x : RegIdx) (nn : Byte) (s : State), ∃ t, exec (.rand x nn) s = .next t ∧ t.pc = s.pc ∧
    Unchanged { regs := [x], random := true } s t ∧ t.rndDraws = s.rndDraws + 1 ∧
    ∀ k, (t.V x).getLsbD k = (nn.getLsbD k && (Config.randomByte s.rndDraws).getLsbD k)

/-! ## Control transfer -/

/-- `jump` (R101): `PC` is the 12-bit target, any value, and nothing else changes. -/
def Obligations.JumpSetsTheProgramCounterAlone : Prop :=
  ∀ (nnn : Addr12) (s : State), ∃ t, exec (.jump nnn) s = .next t ∧ t.pc.toNat = nnn.toNat ∧ Unchanged {} s t

/-- `jump-offset` (R107): `PC` is the target plus `V[0]`, not reduced modulo 4096 (D8), and nothing else changes. -/
def Obligations.JumpOffsetAddsRegisterZero : Prop :=
  ∀ (nnn : Addr12) (s : State), ∃ t, exec (.jumpOffset nnn) s = .next t ∧
    t.pc.toNat = nnn.toNat + (s.V 0).toNat ∧ Unchanged {} s t

/-- `call` (R102, R173). Below the maximum depth `npc` is saved in the slot `SP` points at (the stack having its `STACK_DEPTH`
slots, as the invariant says), `SP` goes up by one, `PC` is the target, and every other slot and everything else is unchanged;
at the maximum depth it raises `StackOverflow` and only `PC` and `FAULT` are touched (R177, D9, log 11). The depth is 16
(log 3); StepUnderEveryParameterSetting speaks of the others. -/
def Obligations.CallSavesTheNextAddress : Prop :=
  ∀ (nnn : Addr12) (s : State),
    (s.sp < Config.stackDepth → ∃ t, exec (.call nnn) s = .next t ∧ t.pc.toNat = nnn.toNat ∧ t.sp = s.sp + 1 ∧
      (s.stack.length = Config.stackDepth → t.slot s.sp = s.pc) ∧ (∀ j, j ≠ s.sp → t.slot j = s.slot j) ∧
      Unchanged { stack := true } s t) ∧
    (Config.stackDepth ≤ s.sp →
      exec (.call nnn) s = .next (s.takeFault (s.pc - 2) .stackOverflow (encode (.call nnn)) 0))

/-- `return` (R100, R172). With a saved address `SP` goes down by one, `PC` is the newest saved value as it is, and nothing
else changes; with an empty stack it raises `StackUnderflow` and only `PC` and `FAULT` are touched (R177, D9, log 11). -/
def Obligations.ReturnPopsTheNewestAddress : Prop :=
  ∀ s : State,
    (0 < s.sp → ∃ t, exec .ret s = .next t ∧ t.sp = s.sp - 1 ∧ t.pc = s.slot (s.sp - 1) ∧ t.stack = s.stack ∧
      Unchanged { stack := true } s t) ∧
    (s.sp = 0 → exec .ret s = .next (s.takeFault (s.pc - 2) .stackUnderflow 0x00EE 0))

/-- Call and return (R100, R102, source property S3): a `return` executed next at any address goes back to the instruction
after the call, with the stack pointer and every live slot as before. The stack has its `STACK_DEPTH` slots, as the invariant
says. -/
def Obligations.CallThenReturnComesBack : Prop :=
  ∀ (nnn : Addr12) (s : State) (p : Word), s.stack.length = Config.stackDepth → s.sp < Config.stackDepth → ∃ t u,
    exec (.call nnn) s = .next t ∧ exec .ret (t.setPc p) = .next u ∧ u.pc = s.pc ∧ u.sp = s.sp ∧
    ∀ j, j < s.sp → u.slot j = s.slot j

/-- The four register skips (R103 to R106, R110): `PC` goes two further exactly when the condition holds, and nothing else
changes. -/
def Obligations.RegisterSkipsMoveTheProgramCounterAlone : Prop :=
  ∀ (x y : RegIdx) (nn : Byte) (s : State),
    (∃ t, exec (.skipEqImm x nn) s = .next t ∧ t.pc = (if s.V x = nn then s.pc + 2 else s.pc) ∧ Unchanged {} s t) ∧
    (∃ t, exec (.skipNeImm x nn) s = .next t ∧ t.pc = (if s.V x = nn then s.pc else s.pc + 2) ∧ Unchanged {} s t) ∧
    (∃ t, exec (.skipEqReg x y) s = .next t ∧ t.pc = (if s.V x = s.V y then s.pc + 2 else s.pc) ∧ Unchanged {} s t) ∧
    (∃ t, exec (.skipNeReg x y) s = .next t ∧ t.pc = (if s.V x = s.V y then s.pc else s.pc + 2) ∧ Unchanged {} s t)

/-- A running core at a `jump` to its own address stays as it is for ever (R101, R203): the step leaves the whole state
unchanged. -/
def Obligations.SelfJumpLeavesTheStateUnchanged : Prop :=
  ∀ (s : State) (nnn : Addr12), s.fault.valid = false → s.fetch = .ok (encode (.jump nnn)) → nnn.toNat = s.pc.toNat →
    step s = .next s

/-! ## The address register and memory -/

/-- `set-I` and `font-char` (R140, R142): `I` alone changes, to the 12-bit immediate, or to five times the whole byte. -/
def Obligations.SetIAndFontCharWriteTheAddressRegisterAlone : Prop :=
  ∀ (nnn : Addr12) (x : RegIdx) (s : State),
    (∃ t, exec (.setI nnn) s = .next t ∧ t.iReg.toNat = nnn.toNat ∧ t.pc = s.pc ∧
      Unchanged { addrReg := true } s t) ∧
    (∃ t, exec (.fontChar x) s = .next t ∧ t.iReg.toNat = (s.V x).toNat * 5 ∧ t.pc = s.pc ∧
      Unchanged { addrReg := true } s t)

/-- `add-I` (R141): `I` alone changes, modulo 65536, with no flag and no fault even above 4095 (D8). -/
def Obligations.AddIWrapsModulo65536WithoutFlag : Prop :=
  ∀ (x : RegIdx) (s : State), ∃ t, exec (.addI x) s = .next t ∧
    t.iReg.toNat = (s.iReg.toNat + (s.V x).toNat) % 65536 ∧ t.pc = s.pc ∧ Unchanged { addrReg := true } s t

/-- `store-bcd` (R143). Inside the memory the hundreds, tens and units digits of `V[X]` are at `I`, `I + 1`, `I + 2`, `I` is
not advanced, and nothing else changes, no other byte included; with `I` above 4093 it raises `MemRange` at the lowest
invalid address and only `PC` and `FAULT` are touched (R177, D9,
log 11). -/
def Obligations.StoreBcdWritesThreeDigits : Prop :=
  ∀ (x : RegIdx) (s : State),
    (s.iReg.toNat ≤ 4093 → ∃ t, exec (.storeBcd x) s = .next t ∧ t.pc = s.pc ∧
      Unchanged { bytes := (s.iReg.toNat, 3) } s t ∧
      (s.mem.wf = true →
        (Memory.read t.mem s.iReg.toNat).toNat = (s.V x).toNat / 100 ∧
        (Memory.read t.mem (s.iReg.toNat + 1)).toNat = (s.V x).toNat / 10 % 10 ∧
        (Memory.read t.mem (s.iReg.toNat + 2)).toNat = (s.V x).toNat % 10)) ∧
    (4093 < s.iReg.toNat → exec (.storeBcd x) s =
      .next (s.takeFault (s.pc - 2) .memRange (encode (.storeBcd x)) (BitVec.ofNat 16 (max s.iReg.toNat 4096))))

/-- `reg-dump` (R144). Inside the memory registers 0 to `X` are at `I` to `I + X`, `I` is advanced by `X + 1` modulo 65536, and
nothing else changes, no other byte included; else it raises `MemRange` at the lowest invalid address and only `PC` and
`FAULT` are touched (R177, D9,
log 11). -/
def Obligations.RegDumpStoresRegistersZeroToX : Prop :=
  ∀ (x : RegIdx) (s : State),
    (s.iReg.toNat + x.toNat ≤ 4095 → ∃ t, exec (.regDump x) s = .next t ∧ t.pc = s.pc ∧
      t.iReg.toNat = (s.iReg.toNat + x.toNat + 1) % 65536 ∧
      Unchanged { addrReg := true, bytes := (s.iReg.toNat, x.toNat + 1) } s t ∧
      (s.mem.wf = true → ∀ r : RegIdx, r.toNat ≤ x.toNat → Memory.read t.mem (s.iReg.toNat + r.toNat) = s.V r)) ∧
    (4095 < s.iReg.toNat + x.toNat → exec (.regDump x) s =
      .next (s.takeFault (s.pc - 2) .memRange (encode (.regDump x)) (BitVec.ofNat 16 (max s.iReg.toNat 4096))))

/-- `reg-load` (R145). Inside the memory registers 0 to `X` are the bytes at `I` to `I + X`, registers above `X` are as before,
`I` is advanced by `X + 1` modulo 65536, and nothing else changes; else it raises `MemRange` at the lowest invalid address
and only `PC` and `FAULT` are touched (R177, D9,
log 11). -/
def Obligations.RegLoadLoadsRegistersZeroToX : Prop :=
  ∀ (x : RegIdx) (s : State),
    (s.iReg.toNat + x.toNat ≤ 4095 → ∃ t, exec (.regLoad x) s = .next t ∧ t.pc = s.pc ∧
      t.iReg.toNat = (s.iReg.toNat + x.toNat + 1) % 65536 ∧ t.mem = s.mem ∧
      (∀ r : RegIdx, t.V r = if r.toNat ≤ x.toNat then Memory.read s.mem (s.iReg.toNat + r.toNat) else s.V r) ∧
      Unchanged { regs := (List.range 16).map (BitVec.ofNat 4), addrReg := true } s t) ∧
    (4095 < s.iReg.toNat + x.toNat → exec (.regLoad x) s =
      .next (s.takeFault (s.pc - 2) .memRange (encode (.regLoad x)) (BitVec.ofNat 16 (max s.iReg.toNat 4096))))

/-- Dump and load (R144, R145): whatever happened to the registers in between, loading from the same base brings back
registers 0 to `X`. -/
def Obligations.RegLoadRestoresWhatRegDumpStored : Prop :=
  ∀ (x : RegIdx) (s : State) (v : Vector Byte 16), s.mem.wf = true → s.iReg.toNat + x.toNat ≤ 4095 → ∃ t u,
    exec (.regDump x) s = .next t ∧ exec (.regLoad x) { t with v := v, iReg := s.iReg } = .next u ∧
    u.iReg = t.iReg ∧ ∀ r : RegIdx, r.toNat ≤ x.toNat → u.V r = s.V r

/-! ## The display -/

/-- `clear-screen` (R150): all pixels are off and nothing else changes, `VF` included. -/
def Obligations.ClearScreenTurnsEveryPixelOff : Prop :=
  ∀ s : State, ∃ t, exec .clearScreen s = .next t ∧ t.pc = s.pc ∧ Unchanged { display := true } s t ∧
    ∀ y x, t.displayView y x = false

/-- `draw` (R151 to R154). Inside the memory, or with `N` = 0 wherever `I` points, exactly the pixels the sprite covers are
inverted, `VF` is 1 when one of them was on and else 0, and nothing else changes; with a row above 4095 it raises `MemRange`
at the lowest invalid address and only `PC` and `FAULT` are touched. The bit order and the vertical wrap are the spec's
decisions D16 and D17 (log 14). -/
def Obligations.DrawInvertsTheCoveredPixelsAndReportsCollision : Prop :=
  ∀ (x y : RegIdx) (n : Nibble) (s : State),
    (n.toNat = 0 ∨ s.iReg.toNat + n.toNat ≤ 4096 →
      ∃ t, exec (.draw x y n) s = .next t ∧ t.pc = s.pc ∧ Unchanged { regs := [15], display := true } s t ∧
        (∀ p, SpriteCovers s x y n p → pixelAt t.disp p = !pixelAt s.disp p) ∧
        (∀ p, ¬ SpriteCovers s x y n p → pixelAt t.disp p = pixelAt s.disp p) ∧
        ((∃ p, SpriteCovers s x y n p ∧ pixelAt s.disp p = true) → t.V 15 = 1) ∧
        ((¬ ∃ p, SpriteCovers s x y n p ∧ pixelAt s.disp p = true) → t.V 15 = 0)) ∧
    (0 < n.toNat → 4096 < s.iReg.toNat + n.toNat → exec (.draw x y n) s =
      .next (s.takeFault (s.pc - 2) .memRange (encode (.draw x y n)) (BitVec.ofNat 16 (max s.iReg.toNat 4096))))

/-- ERASE BY REDRAW (R154, source property S4): drawing the same sprite twice at the same position (with `VF` put back where
it is a coordinate) restores the display, and the second draw reports a collision exactly where the first one set a
pixel. Which pixels the sprite covers rests on the spec's decisions D16 and D17 (log 14). -/
def Obligations.DrawingTwiceRestoresTheDisplay : Prop :=
  ∀ (x y : RegIdx) (n : Nibble) (s : State), n.toNat = 0 ∨ s.iReg.toNat + n.toNat ≤ 4096 →
    ∃ t u, exec (.draw x y n) s = .next t ∧ exec (.draw x y n) (t.setV 15 (s.V 15)) = .next u ∧ u.disp = s.disp ∧
      (u.V 15 = 1 ↔ ∃ p, SpriteCovers s x y n p ∧ pixelAt s.disp p = false)

/-! ## Keys and timers -/

/-- `get-delay`, `set-delay`, `set-sound` (R162, R164, R165): the value moves between `V[X]` and the timer, and nothing else
changes. -/
def Obligations.TimerInstructionsMoveOneByte : Prop :=
  ∀ (x : RegIdx) (s : State),
    (∃ t, exec (.getDelay x) s = .next t ∧ t.V x = s.dt ∧ t.pc = s.pc ∧ Unchanged { regs := [x] } s t) ∧
    (∃ t, exec (.setDelay x) s = .next t ∧ t.dt = s.V x ∧ t.pc = s.pc ∧ Unchanged { delay := true } s t) ∧
    (∃ t, exec (.setSound x) s = .next t ∧ t.st = s.V x ∧ t.pc = s.pc ∧ Unchanged { sound := true } s t)

/-- The key skips with a key code in `V[X]` (R160, R161): the first skips when that key is down, the second when it is up,
and nothing else changes. -/
def Obligations.KeySkipsTestTheLevelOfOneKey : Prop :=
  ∀ (x : RegIdx) (k : KeyCode) (s : State), (s.V x).toNat = k.toNat →
    (∃ t, exec (.skipKeyPressed x) s = .next t ∧ Unchanged {} s t ∧
      t.pc = if s.keyDown k = true then s.pc + 2 else s.pc) ∧
    (∃ t, exec (.skipKeyReleased x) s = .next t ∧ Unchanged {} s t ∧
      t.pc = if s.keyDown k = true then s.pc else s.pc + 2)

/-- `wait-key` (R163): with no key down only `PC` goes back by two; else `V[X]` is the smallest code that is down (the
default `KEY_PICK`, log 6) and `PC` stays `npc`. -/
def Obligations.WaitKeyGivesTheSmallestKeyDown : Prop :=
  ∀ (x : RegIdx) (s : State),
    ((∀ k, s.keyDown k = false) → exec (.waitKey x) s = .next { s with pc := s.pc - 2 }) ∧
    (∀ k, s.keyDown k = true → (∀ j : KeyCode, j.toNat < k.toNat → s.keyDown j = false) →
      ∃ t, exec (.waitKey x) s = .next t ∧ (t.V x).toNat = k.toNat ∧ t.pc = s.pc ∧ Unchanged { regs := [x] } s t)

/-- `wait-key` for every `KEY_PICK` that picks a member of the keys down (R6(d), R163, U6): the register receives the code
of a key that is down, `PC` stays `npc`, and nothing else changes. -/
def Obligations.WaitKeyGivesAKeyDownForEveryPick : Prop :=
  ∀ (pick : List KeyCode → KeyCode) (x : RegIdx) (s : State),
    (∀ ks : List KeyCode, ks ≠ [] → pick ks ∈ ks) → (∃ k, s.keyDown k = true) →
    (waitKeyWith pick x s).pc = s.pc ∧
    ∃ k, s.keyDown k = true ∧ ((waitKeyWith pick x s).V x).toNat = k.toNat ∧
      Unchanged { regs := [x] } s (waitKeyWith pick x s)

/-- THE SPIN (R163, R197, source property S9): a running core at a `wait-key` with no key down steps to itself, the whole
state unchanged, whatever ticks and key releases come; after a `key_press` it goes on. -/
def Obligations.WaitKeySpinsUntilAKeyPress : Prop :=
  ∀ (s : State) (x : RegIdx), s.fault.valid = false → s.fetch = .ok (encode (.waitKey x)) →
    (∀ k, s.keyDown k = false) →
    step s = .next s ∧ step s.tick = .next s.tick ∧ (∀ k, step (s.keyRelease k) = .next (s.keyRelease k)) ∧
    ∀ k, ∃ t, step (s.keyPress k) = .next t ∧ (t.V x).toNat = k.toNat ∧ t.pc = s.pc + 2

/-! ## The host's transactions -/

/-- `tick` (R87): each timer counts down by one and stops at 0, and nothing else changes, in every state, halted or not. -/
def Obligations.TickCountsBothTimersDownToZero : Prop :=
  ∀ s : State, s.tick.dt.toNat = s.dt.toNat - 1 ∧ s.tick.st.toNat = s.st.toNat - 1 ∧ s.tick.pc = s.pc ∧
    Unchanged { delay := true, sound := true } s s.tick

/-- `key_press` and `key_release` (R88, R89): the one flag is set or cleared, and nothing else changes, in every state. -/
def Obligations.KeyEventsSetOneFlag : Prop :=
  ∀ (s : State) (k : KeyCode),
    (∀ j, (s.keyPress k).keyDown j = (decide (j = k) || s.keyDown j)) ∧
    (∀ j, (s.keyRelease k).keyDown j = (decide (j ≠ k) && s.keyDown j)) ∧
    { s.keyPress k with key := s.key } = s ∧ { s.keyRelease k with key := s.key } = s

/-- `reset` (R190, R24): from every state, halted or not, and under any parameters (R6), every piece of state has its reset
value, the stack has `STACK_DEPTH` slots (R15, D4; log 15), `SP` and `FAULT` are cleared (D18), and the report is `Ok` (log
2). The font bytes are a free value (log 5). -/
def Obligations.ResetSetsEveryPieceOfState : Prop :=
  ∀ (P : Params) (s : State),
    (∀ r, (s.hostReset P).V r = 0) ∧ (s.hostReset P).iReg = 0 ∧ (s.hostReset P).pc.toNat = 0x200 ∧
    (s.hostReset P).sp = 0 ∧ (s.hostReset P).stack.length = P.stackDepth ∧ (s.hostReset P).dt = 0 ∧
    (s.hostReset P).st = 0 ∧ (∀ k, (s.hostReset P).keyDown k = false) ∧
    (∀ a : Fin 80, Memory.read (s.hostReset P).mem a.val = Config.fontRom a) ∧
    (∀ a, 80 ≤ a → a < 4096 → Memory.read (s.hostReset P).mem a = 0) ∧
    (∀ y x, (s.hostReset P).displayView y x = false) ∧ (s.hostReset P).fault = ⟨false, .none, 0, 0, 0⟩ ∧
    (s.hostReset P).report = .ok

/-- `load` (R192, R193), under any parameters (R6): an image of at most 3584 bytes is in memory from 0x200 on and everything
else is as after reset; a longer one is refused and leaves the reset state. -/
def Obligations.LoadPlacesTheImageOrLeavesTheResetState : Prop :=
  ∀ (P : Params) (s : State) (image : List Byte),
    (image.length ≤ 3584 → (s.load P image).1 = .ok ∧
      { (s.load P image).2 with mem := (s.hostReset P).mem } = s.hostReset P ∧
      (∀ k (h : k < image.length), Memory.read (s.load P image).2.mem (0x200 + k) = image[k]) ∧
      (∀ a, a < 0x200 ∨ 0x200 + image.length ≤ a →
        Memory.read (s.load P image).2.mem a = Memory.read (s.hostReset P).mem a)) ∧
    (3584 < image.length → s.load P image = (.loadTooLarge, s.hostReset P))

/-! ## The parameters -/

/-- What the parameters of R6 change in a step, for every setting: nothing in a halted core, in a failed fetch and in 32 of
the instructions; `STACK_DEPTH` decides whether a `call` is accepted, and `KEY_PICK` which key `wait-key` gives. Unknown words
are UnknownOpcodeFollowsThePolicy. The machine behind `step` has the default setting (log 20). -/
def Obligations.StepUnderEveryParameterSetting : Prop :=
  ∀ (P : Params) (s : State),
    (s.fault.valid = true ∨ (∃ a, s.fetch = .error a) → stepWith P s = step s) ∧
    (∀ (w : Word) (i : Instr), s.fault.valid = false → s.fetch = .ok w → decode w = .ok i →
      match i with
      | .call nnn =>
        (s.sp < P.stackDepth → stepWith P s =
          .next { s with pc := zext16 nnn, stack := s.stack.set s.sp (s.pc + 2), sp := s.sp + 1 }) ∧
        (P.stackDepth ≤ s.sp → stepWith P s = .next { s with fault := ⟨true, .stackOverflow, s.pc, w, 0⟩ })
      | .waitKey x => stepWith P s = .next (waitKeyWith P.keyPick x (s.setPc (s.pc + 2)))
      | _ => stepWith P s = step s)

/-- With legal parameters (R6: a positive depth) the stack is empty and ready after a load: the first instruction may be a
`call`, wherever it goes and whatever the image (R194). -/
def Obligations.AfterLoadACallIsAccepted : Prop :=
  ∀ (P : Params) (s : State) (image : List Byte) (nnn : Addr12), P.Legal → ∃ t,
    execWith P (.call nnn) ((s.load P image).2.setPc 0x202) = .next t ∧ t.pc.toNat = nnn.toNat ∧ t.sp = 1 ∧
    t.slot 0 = 0x202 ∧ t.fault.valid = false
end

