-- ==== Sys2Proof/Laws/Decode.lean ====
section
/-! SUPPORT. The fields of a word put together by format (R61, R62), its fixed bits, the fields of a word as numbers, and a word
as its fields put together again. -/

namespace Sys2Proof

/-! ## The fields of a word of four nibbles -/

section nibbles
variable (f x y n : BitVec 4)

@[simp] theorem fieldFam_nibbles : fieldFam (f ++ x ++ y ++ n : Word) = f := by
  unfold fieldFam; ext i hi; simp only [BitVec.getElem_extractLsb', BitVec.getLsbD_append]; interval_cases i <;> simp

@[simp] theorem fieldX_nibbles : fieldX (f ++ x ++ y ++ n : Word) = x := by
  unfold fieldX; ext i hi; simp only [BitVec.getElem_extractLsb', BitVec.getLsbD_append]; interval_cases i <;> simp

@[simp] theorem fieldY_nibbles : fieldY (f ++ x ++ y ++ n : Word) = y := by
  unfold fieldY; ext i hi; simp only [BitVec.getElem_extractLsb', BitVec.getLsbD_append]; interval_cases i <;> simp

@[simp] theorem fieldN_nibbles : fieldN (f ++ x ++ y ++ n : Word) = n := by
  unfold fieldN; ext i hi; simp only [BitVec.getElem_extractLsb', BitVec.getLsbD_append]; interval_cases i <;> simp

end nibbles

/-! ## The fields of a word of two nibbles and a byte -/

section byte
variable (f x : BitVec 4) (nn : BitVec 8)

@[simp] theorem fieldFam_byte : fieldFam (f ++ x ++ nn : Word) = f := by
  unfold fieldFam; ext i hi; simp only [BitVec.getElem_extractLsb', BitVec.getLsbD_append]; interval_cases i <;> simp

@[simp] theorem fieldX_byte : fieldX (f ++ x ++ nn : Word) = x := by
  unfold fieldX; ext i hi; simp only [BitVec.getElem_extractLsb', BitVec.getLsbD_append]; interval_cases i <;> simp

@[simp] theorem fieldNN_byte : fieldNN (f ++ x ++ nn : Word) = nn := by
  unfold fieldNN; ext i hi; simp only [BitVec.getElem_extractLsb', BitVec.getLsbD_append]; interval_cases i <;> simp

end byte

/-! ## The fields of a word of a nibble and an address -/

section address
variable (f : BitVec 4) (nnn : BitVec 12)

@[simp] theorem fieldFam_addr : fieldFam (f ++ nnn : Word) = f := by
  unfold fieldFam; ext i hi; simp only [BitVec.getElem_extractLsb', BitVec.getLsbD_append]; interval_cases i <;> simp

@[simp] theorem fieldNNN_addr : fieldNNN (f ++ nnn : Word) = nnn := by
  unfold fieldNNN; ext i hi; simp only [BitVec.getElem_extractLsb', BitVec.getLsbD_append]; interval_cases i <;> simp

end address

/-! ## The fixed bits of a word, by format -/

theorem mask_addr (f : BitVec 4) (nnn : BitVec 12) : (f ++ nnn : Word) &&& 0xF000#16 = (f ++ 0#12 : Word) := by
  ext i hi; simp only [BitVec.getElem_and, BitVec.getElem_append]; interval_cases i <;> simp

theorem mask_byte (f x : BitVec 4) (nn : BitVec 8) : (f ++ x ++ nn : Word) &&& 0xF000#16 = (f ++ 0#12 : Word) := by
  ext i hi; simp only [BitVec.getElem_and, BitVec.getElem_append]; interval_cases i <;> simp

theorem mask_byteSelector (f x : BitVec 4) (nn : BitVec 8) :
    (f ++ x ++ nn : Word) &&& 0xF0FF#16 = (f ++ 0#4 ++ nn : Word) := by
  ext i hi; simp only [BitVec.getElem_and, BitVec.getElem_append]; interval_cases i <;> simp

theorem mask_nibbles (f x y n : BitVec 4) : (f ++ x ++ y ++ n : Word) &&& 0xF000#16 = (f ++ 0#12 : Word) := by
  ext i hi; simp only [BitVec.getElem_and, BitVec.getElem_append]; interval_cases i <;> simp

theorem mask_nibbleSelector (f x y n : BitVec 4) :
    (f ++ x ++ y ++ n : Word) &&& 0xF00F#16 = (f ++ 0#8 ++ n : Word) := by
  ext i hi; simp only [BitVec.getElem_and, BitVec.getElem_append]; interval_cases i <;> simp

/-! ## The fields as numbers -/

theorem fieldFam_toNat (w : Word) : (fieldFam w).toNat = w.toNat / 4096 := by
  have := w.isLt
  simp only [fieldFam, BitVec.extractLsb'_toNat, Nat.shiftRight_eq_div_pow]; omega

theorem fieldX_toNat (w : Word) : (fieldX w).toNat = w.toNat / 256 % 16 := by
  simp [fieldX, BitVec.extractLsb'_toNat, Nat.shiftRight_eq_div_pow]

theorem fieldY_toNat (w : Word) : (fieldY w).toNat = w.toNat / 16 % 16 := by
  simp [fieldY, BitVec.extractLsb'_toNat, Nat.shiftRight_eq_div_pow]

theorem fieldN_toNat (w : Word) : (fieldN w).toNat = w.toNat % 16 := by
  simp [fieldN, BitVec.extractLsb'_toNat]

theorem fieldNN_toNat (w : Word) : (fieldNN w).toNat = w.toNat % 256 := by
  simp [fieldNN, BitVec.extractLsb'_toNat]

theorem fieldNNN_toNat (w : Word) : (fieldNNN w).toNat = w.toNat % 4096 := by
  simp [fieldNNN, BitVec.extractLsb'_toNat]

/-! ## A word is its fields put together -/

theorem word_eq_addr (w : Word) : (fieldFam w ++ fieldNNN w : Word) = w := by
  unfold fieldFam fieldNNN
  ext i hi; simp only [BitVec.getElem_append, BitVec.getElem_extractLsb']; interval_cases i <;> simp

theorem word_eq_byte (w : Word) : (fieldFam w ++ fieldX w ++ fieldNN w : Word) = w := by
  unfold fieldFam fieldX fieldNN
  ext i hi; simp only [BitVec.getElem_append, BitVec.getElem_extractLsb']; interval_cases i <;> simp

theorem word_eq_nibbles (w : Word) : (fieldFam w ++ fieldX w ++ fieldY w ++ fieldN w : Word) = w := by
  unfold fieldFam fieldX fieldY fieldN
  ext i hi; simp only [BitVec.getElem_append, BitVec.getElem_extractLsb']; interval_cases i <;> simp

/-- The high byte of a word stands at the lower address (R44). -/
theorem joinBytes_toNat (hi lo : Byte) : (joinBytes hi lo).toNat = 256 * hi.toNat + lo.toNat := by
  rw [joinBytes, BitVec.toNat_append, ← Nat.shiftLeft_add_eq_or_of_lt lo.isLt, Nat.shiftLeft_eq]
  omega

/-! ## Assembly lines -/

/-- A literal fits its field when it is one of the field's values (R73). -/
@[simp] theorem OperandKind.fits_iff (k : OperandKind) (n : Nat) : k.fits n = true ↔ n < k.count := decide_eq_true_iff

end Sys2Proof
end

