-- ==== Sys2Proof/Laws/Display.lean ====
section
/-! SUPPORT. The compositor: what toggling one pixel and a list of pixels does to every pixel, and which pixels a sprite has
(R151 to R154). -/

namespace Sys2Proof.Machine

/-- Toggling a pixel inverts it and leaves every other pixel alone. -/
theorem pixelAt_togglePixel (d : Display) (p q : PixelPos) :
    pixelAt (togglePixel d p) q = (pixelAt d q ^^ decide (q = p)) := by
  obtain ⟨py, px⟩ := p
  obtain ⟨qy, qx⟩ := q
  unfold pixelAt togglePixel
  simp only [Fin.getElem_fin, Vector.getElem_set, Prod.mk.injEq]
  by_cases hy : py.val = qy.val
  · have hy' : qy = py := Fin.ext hy.symm
    subst hy'
    simp [Fin.ext_iff]
  · have hy' : ¬ qy = py := fun h => hy (congrArg Fin.val h.symm)
    simp [hy, hy']

/-- Toggling a list without repeats inverts exactly its pixels. -/
theorem pixelAt_togglePixels (ps : List PixelPos) (hn : ps.Nodup) (d : Display) (coll : Bool) (q : PixelPos) :
    pixelAt (togglePixels d coll ps).1 q = (pixelAt d q ^^ decide (q ∈ ps)) := by
  induction ps generalizing d coll with
  | nil => simp [togglePixels]
  | cons p ps ih =>
    have hn' := List.nodup_cons.1 hn
    rw [togglePixels, ih hn'.2, pixelAt_togglePixel]
    by_cases h1 : q = p
    · subst h1; simp [hn'.1]
    · simp [h1]

/-- The collision flag of a list without repeats: some listed pixel was on (R154). -/
theorem togglePixels_collision (ps : List PixelPos) (hn : ps.Nodup) (d : Display) (coll : Bool) :
    (togglePixels d coll ps).2 = (coll || ps.any (pixelAt d)) := by
  induction ps generalizing d coll with
  | nil => simp [togglePixels]
  | cons p ps ih =>
    have hn' := List.nodup_cons.1 hn
    have hany : ps.any (pixelAt (togglePixel d p)) = ps.any (pixelAt d) := by
      rw [Bool.eq_iff_iff, List.any_eq_true, List.any_eq_true]
      have hq : ∀ q ∈ ps, pixelAt (togglePixel d p) q = pixelAt d q := fun q hq => by
        have : q ≠ p := fun h => hn'.1 (h ▸ hq)
        simp [pixelAt_togglePixel, this]
      exact ⟨fun ⟨q, h1, h2⟩ => ⟨q, h1, by rwa [hq q h1] at h2⟩, fun ⟨q, h1, h2⟩ => ⟨q, h1, by rwa [hq q h1]⟩⟩
    rw [togglePixels, ih hn'.2, hany, List.any_cons, Bool.or_assoc]

/-- Which pixels a sprite row has: column `c` of the row is bit `7 - c` of its byte (R152, R153). -/
theorem mem_spriteRowPixels (x0 y : Nat) (b : Byte) (q : PixelPos) :
    q ∈ spriteRowPixels x0 y b ↔
      q.1.val = y % 32 ∧ ∃ c, c < 8 ∧ b.getLsbD (7 - c) = true ∧ q.2.val = (x0 + c) % 64 := by
  obtain ⟨qy, qx⟩ := q
  simp only [spriteRowPixels, List.mem_map, List.mem_filter, List.mem_range, Prod.mk.injEq, Fin.ext_iff, Fin.val_ofNat]
  constructor
  · rintro ⟨c, ⟨h1, h2⟩, h3, h4⟩
    exact ⟨h3.symm, c, h1, h2, h4.symm⟩
  · rintro ⟨h3, c, h1, h2, h4⟩
    exact ⟨c, ⟨h1, h2⟩, h3.symm, h4.symm⟩

/-- Which pixels a sprite has (R151 to R153). -/
theorem mem_spritePixels (x0 y0 : Nat) (rows : List Byte) (q : PixelPos) :
    q ∈ spritePixels x0 y0 rows ↔
      ∃ r, ∃ h : r < rows.length, q.1.val = (y0 + r) % 32 ∧
        ∃ c, c < 8 ∧ (rows[r]).getLsbD (7 - c) = true ∧ q.2.val = (x0 + c) % 64 := by
  induction rows generalizing y0 with
  | nil => simp [spritePixels]
  | cons b bs ih =>
    simp only [spritePixels, List.mem_append, mem_spriteRowPixels, ih]
    constructor
    · rintro (⟨h1, h2⟩ | ⟨r, hr, h1, h2⟩)
      · exact ⟨0, by simp, by simpa using h1, by simpa using h2⟩
      · refine ⟨r + 1, by simpa using hr, ?_, by simpa using h2⟩
        rw [h1]; congr 1; omega
    · rintro ⟨r, hr, h1, h2⟩
      cases r with
      | zero => exact .inl ⟨by simpa using h1, by simpa using h2⟩
      | succ r =>
        refine .inr ⟨r, by simpa using hr, ?_, by simpa using h2⟩
        rw [h1]; congr 1; omega

theorem spriteRowPixels_nodup (x0 y : Nat) (b : Byte) : (spriteRowPixels x0 y b).Nodup := by
  refine List.Nodup.map_on ?_ (List.nodup_range.filter _)
  intro c hc c' hc' h
  have h1 := (List.mem_filter.1 hc).1
  have h2 := (List.mem_filter.1 hc').1
  rw [List.mem_range] at h1 h2
  have := congrArg Fin.val (Prod.mk.inj h).2
  simp only [Fin.val_ofNat] at this
  omega

/-- Within one draw no pixel is visited twice (R151): a sprite has at most 32 rows. -/
theorem spritePixels_nodup (x0 y0 : Nat) (rows : List Byte) (h : rows.length ≤ 32) :
    (spritePixels x0 y0 rows).Nodup := by
  induction rows generalizing y0 with
  | nil => exact List.nodup_nil
  | cons b bs ih =>
    simp only [List.length_cons] at h
    refine List.Nodup.append (spriteRowPixels_nodup x0 y0 b) (ih (y0 + 1) (by omega)) ?_
    intro q hq hq'
    have h1 := ((mem_spriteRowPixels ..).1 hq).1
    obtain ⟨r, hr, h2, -⟩ := (mem_spritePixels ..).1 hq'
    omega

/-- Two displays with the same pixels are the same display. -/
theorem display_ext {d d' : Display} (h : ∀ q, pixelAt d q = pixelAt d' q) : d = d' := by
  apply Vector.ext
  intro y hy
  apply BitVec.eq_of_getLsbD_eq
  intro x hx
  exact h (⟨y, hy⟩, ⟨x, hx⟩)

end Sys2Proof.Machine
end

