-- ==== Sys2Proof/Laws/Memory.lean ====
section
/-! SUPPORT. Memory: every operation keeps the canonical form, a byte reads as last written, a write leaves every other byte
alone; and what the checked accesses answer (R43, R49). -/

namespace Sys2Proof.Machine

/-! ## The canonical form -/

theorem Memory.wfFrom_cons (lo a : Nat) (v : Byte) (m : Memory) :
    Memory.wfFrom lo ((a, v) :: m) = true ↔
      lo ≤ a ∧ a < Config.memSize ∧ v ≠ Memory.unwritten a ∧ Memory.wfFrom (a + 1) m = true := by
  simp [Memory.wfFrom, and_assoc]

theorem Memory.wfFrom_mono {lo lo' : Nat} (h : lo' ≤ lo) {m : Memory} (hm : Memory.wfFrom lo m = true) :
    Memory.wfFrom lo' m = true := by
  cases m with
  | nil => rfl
  | cons c m =>
    obtain ⟨a, v⟩ := c
    rw [Memory.wfFrom_cons] at hm ⊢
    exact ⟨by omega, hm.2⟩

theorem Memory.put_wfFrom {lo a : Nat} (v : Byte) {m : Memory} (hm : Memory.wfFrom lo m = true) (hlo : lo ≤ a)
    (ha : a < Config.memSize) : Memory.wfFrom lo (Memory.put m a v) = true := by
  induction m generalizing lo with
  | nil =>
    unfold Memory.put
    split
    · rfl
    · next h => exact (Memory.wfFrom_cons ..).2 ⟨hlo, ha, h, rfl⟩
  | cons c m ih =>
    obtain ⟨b, u⟩ := c
    have hc := (Memory.wfFrom_cons ..).1 hm
    unfold Memory.put
    split
    · next hab =>
      split
      · exact hm
      · next hv => exact (Memory.wfFrom_cons ..).2 ⟨hlo, ha, hv, (Memory.wfFrom_cons ..).2 ⟨hab, hc.2⟩⟩
    · split
      · next _ hab =>
        subst hab
        split
        · exact Memory.wfFrom_mono (by omega) hc.2.2.2
        · next hv => exact (Memory.wfFrom_cons ..).2 ⟨hlo, ha, hv, hc.2.2.2⟩
      · exact (Memory.wfFrom_cons ..).2 ⟨hc.1, hc.2.1, hc.2.2.1, ih hc.2.2.2 (by omega)⟩

theorem Memory.write_wf (a : Nat) (v : Byte) {m : Memory} (hm : m.wf = true) : (Memory.write m a v).wf = true := by
  unfold Memory.write
  split
  · next ha => exact Memory.put_wfFrom v hm (Nat.zero_le a) ha
  · exact hm

theorem Memory.writeList_wf (a : Nat) (vs : List Byte) {m : Memory} (hm : m.wf = true) :
    (Memory.writeList m a vs).wf = true := by
  induction vs generalizing m a with
  | nil => exact hm
  | cons v vs ih => exact ih (a + 1) (Memory.write_wf a v hm)

theorem Memory.nil_wf : Memory.wf [] = true := rfl

/-! ## Reads after writes -/

/-- Below the lower bound of a canonical list nothing is listed. -/
theorem Memory.read_of_lt {lo a : Nat} {m : Memory} (hm : Memory.wfFrom lo m = true) (h : a < lo) :
    Memory.read m a = Memory.unwritten a := by
  induction m generalizing lo with
  | nil => rfl
  | cons c m ih =>
    obtain ⟨b, u⟩ := c
    have hc := (Memory.wfFrom_cons ..).1 hm
    rw [Memory.read, if_neg (by omega)]
    exact ih hc.2.2.2 (by omega)

theorem Memory.read_put_same {lo a : Nat} (v : Byte) {m : Memory} (hm : Memory.wfFrom lo m = true) :
    Memory.read (Memory.put m a v) a = v := by
  induction m generalizing lo with
  | nil =>
    unfold Memory.put
    split
    · next h => exact h.symm
    · simp [Memory.read]
  | cons c m ih =>
    obtain ⟨b, u⟩ := c
    have hc := (Memory.wfFrom_cons ..).1 hm
    unfold Memory.put
    split
    · next hab =>
      split
      · next hv =>
        rw [Memory.read, if_neg (by omega), hv]
        exact Memory.read_of_lt hc.2.2.2 (by omega)
      · simp [Memory.read]
    · split
      · next _ hab =>
        subst hab
        split
        · next hv => rw [hv]; exact Memory.read_of_lt hc.2.2.2 (Nat.lt_succ_self a)
        · simp [Memory.read]
      · next h1 h2 =>
        rw [Memory.read, if_neg h2]
        exact ih hc.2.2.2

/-- A write leaves every other byte alone, whatever the list. -/
theorem Memory.read_put_other {a c : Nat} (v : Byte) (m : Memory) (h : c ≠ a) :
    Memory.read (Memory.put m a v) c = Memory.read m c := by
  induction m with
  | nil =>
    unfold Memory.put
    split
    · rfl
    · simp [Memory.read, h]
  | cons d m ih =>
    obtain ⟨b, u⟩ := d
    unfold Memory.put
    split
    · split
      · rfl
      · conv_lhs => rw [Memory.read, if_neg h]
    · split
      · next _ hab =>
        subst hab
        split <;> simp [Memory.read, h]
      · simp [Memory.read, ih]

theorem Memory.read_write_same {a : Nat} (v : Byte) {m : Memory} (hm : m.wf = true) (ha : a < Config.memSize) :
    Memory.read (Memory.write m a v) a = v := by
  rw [Memory.write, if_pos ha]
  exact Memory.read_put_same v hm

theorem Memory.read_write_other {a c : Nat} (v : Byte) (m : Memory) (h : c ≠ a) :
    Memory.read (Memory.write m a v) c = Memory.read m c := by
  unfold Memory.write
  split
  · exact Memory.read_put_other v m h
  · rfl

/-- A block write leaves every byte outside the block alone, whatever the list. -/
theorem Memory.read_writeList_outside {a c : Nat} (vs : List Byte) (m : Memory) (h : c < a ∨ a + vs.length ≤ c) :
    Memory.read (Memory.writeList m a vs) c = Memory.read m c := by
  induction vs generalizing m a with
  | nil => rfl
  | cons v vs ih =>
    simp only [List.length_cons] at h
    rw [Memory.writeList, ih _ (by omega)]
    exact Memory.read_write_other v m (by omega)

/-- A block write that fits is read back byte by byte. -/
theorem Memory.read_writeList_inside {a : Nat} (vs : List Byte) {m : Memory} (hm : m.wf = true)
    (hfit : a + vs.length ≤ Config.memSize) {k : Nat} (hk : k < vs.length) :
    Memory.read (Memory.writeList m a vs) (a + k) = vs[k] := by
  induction vs generalizing m a k with
  | nil => simp at hk
  | cons v vs ih =>
    simp only [List.length_cons] at hfit hk
    cases k with
    | zero =>
      change Memory.read (Memory.writeList (Memory.write m a v) (a + 1) vs) a = v
      rw [Memory.read_writeList_outside vs _ (Or.inl (Nat.lt_succ_self a))]
      exact Memory.read_write_same v hm (by omega)
    | succ k =>
      have e : a + (k + 1) = (a + 1) + k := by omega
      rw [Memory.writeList, e, ih (Memory.write_wf a v hm) (by omega) (by omega)]
      rfl

/-- Two canonical lists that read the same everywhere are the same list. -/
theorem Memory.ext_of_read {lo : Nat} {m m' : Memory} (hm : Memory.wfFrom lo m = true) (hm' : Memory.wfFrom lo m' = true)
    (h : ∀ a, Memory.read m a = Memory.read m' a) : m = m' := by
  induction m generalizing lo m' with
  | nil =>
    cases m' with
    | nil => rfl
    | cons c m' =>
      obtain ⟨b, u⟩ := c
      have hc := (Memory.wfFrom_cons ..).1 hm'
      have := h b
      simp only [Memory.read, if_true] at this
      exact absurd this.symm hc.2.2.1
  | cons c m ih =>
    obtain ⟨a, v⟩ := c
    have hc := (Memory.wfFrom_cons ..).1 hm
    cases m' with
    | nil =>
      have := h a
      simp only [Memory.read, if_true] at this
      exact absurd this hc.2.2.1
    | cons c' m' =>
      obtain ⟨b, u⟩ := c'
      have hc' := (Memory.wfFrom_cons ..).1 hm'
      have hab : a = b := by
        rcases Nat.lt_trichotomy a b with hlt | heq | hgt
        · have := h a
          rw [Memory.read_of_lt ((Memory.wfFrom_cons ..).2 ⟨Nat.le_refl b, hc'.2⟩) hlt] at this
          simp only [Memory.read, if_true] at this
          exact absurd this hc.2.2.1
        · exact heq
        · have := h b
          rw [Memory.read_of_lt ((Memory.wfFrom_cons ..).2 ⟨Nat.le_refl a, hc.2⟩) hgt] at this
          simp only [Memory.read, if_true] at this
          exact absurd this.symm hc'.2.2.1
      subst hab
      have huv : v = u := by simpa [Memory.read] using h a
      subst huv
      have hrest : m = m' := by
        refine ih hc.2.2.2 hc'.2.2.2 fun d => ?_
        by_cases hd : d = a
        · subst hd
          rw [Memory.read_of_lt hc.2.2.2 (Nat.lt_succ_self d), Memory.read_of_lt hc'.2.2.2 (Nat.lt_succ_self d)]
        · have := h d
          simpa [Memory.read, hd] using this
      rw [hrest]

/-! ## The checked accesses -/

/-- The check fails exactly when the block has a byte above 4095, and then names the lowest such address (R49, R171). -/
theorem lowestInvalid_eq (base n : Nat) :
    lowestInvalid base n = if 0 < n ∧ 4096 < base + n then some (BitVec.ofNat 16 (max base 4096)) else none := by
  unfold lowestInvalid
  by_cases h : 0 < n ∧ 4096 < base + n
  · rw [if_pos h, if_pos (by omega)]
  · rw [if_neg h, if_neg (by omega)]

theorem lowestInvalid_none {base n : Nat} (h : base + n ≤ 4096 ∨ n = 0) : lowestInvalid base n = none := by
  rw [lowestInvalid_eq, if_neg (by omega)]

theorem lowestInvalid_some {base n : Nat} (h0 : 0 < n) (h : 4096 < base + n) :
    lowestInvalid base n = some (BitVec.ofNat 16 (max base 4096)) := by
  rw [lowestInvalid_eq, if_pos ⟨h0, h⟩]

/-- Everything a checked read can answer (R43, R49). -/
theorem State.readBytes_eq (s : State) (base n : Nat) :
    s.readBytes base n =
      if 0 < n ∧ 4096 < base + n then .error (BitVec.ofNat 16 (max base 4096))
      else .ok ((List.range n).map fun k => Memory.read s.mem (base + k)) := by
  unfold State.readBytes
  rw [lowestInvalid_eq]
  by_cases h : 0 < n ∧ 4096 < base + n <;> simp [h]

/-- Everything a checked write can answer (R43, R49). -/
theorem State.writeBytes_eq (s : State) (base : Nat) (bs : List Byte) :
    s.writeBytes base bs =
      if 0 < bs.length ∧ 4096 < base + bs.length then .error (BitVec.ofNat 16 (max base 4096))
      else .ok { s with mem := Memory.writeList s.mem base bs } := by
  unfold State.writeBytes
  rw [lowestInvalid_eq]
  by_cases h : 0 < bs.length ∧ 4096 < base + bs.length <;> simp [h]

end Sys2Proof.Machine
end

