-- ==== Sys2Proof/Laws/State.lean ====
section
/-! SUPPORT. What each named update of the state does to each field, and what a register read sees after it: no later proof
unfolds a record update. -/

namespace Sys2Proof.Machine

variable (s : State)

@[simp] theorem State.setV_v (x : RegIdx) (b : Byte) : (s.setV x b).v = s.v.set x.toNat b x.isLt := rfl
@[simp] theorem State.setV_iReg (x : RegIdx) (b : Byte) : (s.setV x b).iReg = s.iReg := rfl
@[simp] theorem State.setV_pc (x : RegIdx) (b : Byte) : (s.setV x b).pc = s.pc := rfl
@[simp] theorem State.setV_sp (x : RegIdx) (b : Byte) : (s.setV x b).sp = s.sp := rfl
@[simp] theorem State.setV_stack (x : RegIdx) (b : Byte) : (s.setV x b).stack = s.stack := rfl
@[simp] theorem State.setV_dt (x : RegIdx) (b : Byte) : (s.setV x b).dt = s.dt := rfl
@[simp] theorem State.setV_st (x : RegIdx) (b : Byte) : (s.setV x b).st = s.st := rfl
@[simp] theorem State.setV_key (x : RegIdx) (b : Byte) : (s.setV x b).key = s.key := rfl
@[simp] theorem State.setV_mem (x : RegIdx) (b : Byte) : (s.setV x b).mem = s.mem := rfl
@[simp] theorem State.setV_disp (x : RegIdx) (b : Byte) : (s.setV x b).disp = s.disp := rfl
@[simp] theorem State.setV_fault (x : RegIdx) (b : Byte) : (s.setV x b).fault = s.fault := rfl
@[simp] theorem State.setV_rndDraws (x : RegIdx) (b : Byte) : (s.setV x b).rndDraws = s.rndDraws := rfl

@[simp] theorem State.setI_v (w : Word) : (s.setI w).v = s.v := rfl
@[simp] theorem State.setI_iReg (w : Word) : (s.setI w).iReg = w := rfl
@[simp] theorem State.setI_pc (w : Word) : (s.setI w).pc = s.pc := rfl
@[simp] theorem State.setI_sp (w : Word) : (s.setI w).sp = s.sp := rfl
@[simp] theorem State.setI_stack (w : Word) : (s.setI w).stack = s.stack := rfl
@[simp] theorem State.setI_dt (w : Word) : (s.setI w).dt = s.dt := rfl
@[simp] theorem State.setI_st (w : Word) : (s.setI w).st = s.st := rfl
@[simp] theorem State.setI_key (w : Word) : (s.setI w).key = s.key := rfl
@[simp] theorem State.setI_mem (w : Word) : (s.setI w).mem = s.mem := rfl
@[simp] theorem State.setI_disp (w : Word) : (s.setI w).disp = s.disp := rfl
@[simp] theorem State.setI_fault (w : Word) : (s.setI w).fault = s.fault := rfl
@[simp] theorem State.setI_rndDraws (w : Word) : (s.setI w).rndDraws = s.rndDraws := rfl

@[simp] theorem State.setPc_v (w : Word) : (s.setPc w).v = s.v := rfl
@[simp] theorem State.setPc_iReg (w : Word) : (s.setPc w).iReg = s.iReg := rfl
@[simp] theorem State.setPc_pc (w : Word) : (s.setPc w).pc = w := rfl
@[simp] theorem State.setPc_sp (w : Word) : (s.setPc w).sp = s.sp := rfl
@[simp] theorem State.setPc_stack (w : Word) : (s.setPc w).stack = s.stack := rfl
@[simp] theorem State.setPc_dt (w : Word) : (s.setPc w).dt = s.dt := rfl
@[simp] theorem State.setPc_st (w : Word) : (s.setPc w).st = s.st := rfl
@[simp] theorem State.setPc_key (w : Word) : (s.setPc w).key = s.key := rfl
@[simp] theorem State.setPc_mem (w : Word) : (s.setPc w).mem = s.mem := rfl
@[simp] theorem State.setPc_disp (w : Word) : (s.setPc w).disp = s.disp := rfl
@[simp] theorem State.setPc_fault (w : Word) : (s.setPc w).fault = s.fault := rfl
@[simp] theorem State.setPc_rndDraws (w : Word) : (s.setPc w).rndDraws = s.rndDraws := rfl

@[simp] theorem State.loadRegs_v (bs : List Byte) : (s.loadRegs bs).v = writeRegs s.v 0 bs := rfl
@[simp] theorem State.loadRegs_iReg (bs : List Byte) : (s.loadRegs bs).iReg = s.iReg := rfl
@[simp] theorem State.loadRegs_pc (bs : List Byte) : (s.loadRegs bs).pc = s.pc := rfl
@[simp] theorem State.loadRegs_sp (bs : List Byte) : (s.loadRegs bs).sp = s.sp := rfl
@[simp] theorem State.loadRegs_stack (bs : List Byte) : (s.loadRegs bs).stack = s.stack := rfl
@[simp] theorem State.loadRegs_dt (bs : List Byte) : (s.loadRegs bs).dt = s.dt := rfl
@[simp] theorem State.loadRegs_st (bs : List Byte) : (s.loadRegs bs).st = s.st := rfl
@[simp] theorem State.loadRegs_key (bs : List Byte) : (s.loadRegs bs).key = s.key := rfl
@[simp] theorem State.loadRegs_mem (bs : List Byte) : (s.loadRegs bs).mem = s.mem := rfl
@[simp] theorem State.loadRegs_disp (bs : List Byte) : (s.loadRegs bs).disp = s.disp := rfl
@[simp] theorem State.loadRegs_fault (bs : List Byte) : (s.loadRegs bs).fault = s.fault := rfl
@[simp] theorem State.loadRegs_rndDraws (bs : List Byte) : (s.loadRegs bs).rndDraws = s.rndDraws := rfl

@[simp] theorem State.advance_v : s.advance.v = s.v := rfl
@[simp] theorem State.advance_iReg : s.advance.iReg = s.iReg := rfl
@[simp] theorem State.advance_pc : s.advance.pc = s.pc + 2 := rfl
@[simp] theorem State.advance_sp : s.advance.sp = s.sp := rfl
@[simp] theorem State.advance_stack : s.advance.stack = s.stack := rfl
@[simp] theorem State.advance_dt : s.advance.dt = s.dt := rfl
@[simp] theorem State.advance_st : s.advance.st = s.st := rfl
@[simp] theorem State.advance_key : s.advance.key = s.key := rfl
@[simp] theorem State.advance_mem : s.advance.mem = s.mem := rfl
@[simp] theorem State.advance_disp : s.advance.disp = s.disp := rfl
@[simp] theorem State.advance_fault : s.advance.fault = s.fault := rfl
@[simp] theorem State.advance_rndDraws : s.advance.rndDraws = s.rndDraws := rfl

@[simp] theorem State.takeFault_v (pc0 : Word) (code : FaultCode) (instr addr : Word) : (s.takeFault pc0 code instr addr).v = s.v := rfl
@[simp] theorem State.takeFault_iReg (pc0 : Word) (code : FaultCode) (instr addr : Word) : (s.takeFault pc0 code instr addr).iReg = s.iReg := rfl
@[simp] theorem State.takeFault_pc (pc0 : Word) (code : FaultCode) (instr addr : Word) : (s.takeFault pc0 code instr addr).pc = pc0 := rfl
@[simp] theorem State.takeFault_sp (pc0 : Word) (code : FaultCode) (instr addr : Word) : (s.takeFault pc0 code instr addr).sp = s.sp := rfl
@[simp] theorem State.takeFault_stack (pc0 : Word) (code : FaultCode) (instr addr : Word) : (s.takeFault pc0 code instr addr).stack = s.stack := rfl
@[simp] theorem State.takeFault_dt (pc0 : Word) (code : FaultCode) (instr addr : Word) : (s.takeFault pc0 code instr addr).dt = s.dt := rfl
@[simp] theorem State.takeFault_st (pc0 : Word) (code : FaultCode) (instr addr : Word) : (s.takeFault pc0 code instr addr).st = s.st := rfl
@[simp] theorem State.takeFault_key (pc0 : Word) (code : FaultCode) (instr addr : Word) : (s.takeFault pc0 code instr addr).key = s.key := rfl
@[simp] theorem State.takeFault_mem (pc0 : Word) (code : FaultCode) (instr addr : Word) : (s.takeFault pc0 code instr addr).mem = s.mem := rfl
@[simp] theorem State.takeFault_disp (pc0 : Word) (code : FaultCode) (instr addr : Word) : (s.takeFault pc0 code instr addr).disp = s.disp := rfl
@[simp] theorem State.takeFault_fault (pc0 : Word) (code : FaultCode) (instr addr : Word) : (s.takeFault pc0 code instr addr).fault = ⟨true, code, pc0, instr, addr⟩ := rfl
@[simp] theorem State.takeFault_rndDraws (pc0 : Word) (code : FaultCode) (instr addr : Word) : (s.takeFault pc0 code instr addr).rndDraws = s.rndDraws := rfl

@[simp] theorem State.fetchFault_v (a : Word) : (s.fetchFault a).v = s.v := rfl
@[simp] theorem State.fetchFault_iReg (a : Word) : (s.fetchFault a).iReg = s.iReg := rfl
@[simp] theorem State.fetchFault_pc (a : Word) : (s.fetchFault a).pc = s.pc := rfl
@[simp] theorem State.fetchFault_sp (a : Word) : (s.fetchFault a).sp = s.sp := rfl
@[simp] theorem State.fetchFault_stack (a : Word) : (s.fetchFault a).stack = s.stack := rfl
@[simp] theorem State.fetchFault_dt (a : Word) : (s.fetchFault a).dt = s.dt := rfl
@[simp] theorem State.fetchFault_st (a : Word) : (s.fetchFault a).st = s.st := rfl
@[simp] theorem State.fetchFault_key (a : Word) : (s.fetchFault a).key = s.key := rfl
@[simp] theorem State.fetchFault_mem (a : Word) : (s.fetchFault a).mem = s.mem := rfl
@[simp] theorem State.fetchFault_disp (a : Word) : (s.fetchFault a).disp = s.disp := rfl
@[simp] theorem State.fetchFault_fault (a : Word) : (s.fetchFault a).fault = ⟨true, .memRange, s.pc, 0, a⟩ := rfl
@[simp] theorem State.fetchFault_rndDraws (a : Word) : (s.fetchFault a).rndDraws = s.rndDraws := rfl

@[simp] theorem State.setFlag_iReg (f : Byte) : (s.setFlag f).iReg = s.iReg := rfl
@[simp] theorem State.setFlag_pc (f : Byte) : (s.setFlag f).pc = s.pc := rfl
@[simp] theorem State.setFlag_sp (f : Byte) : (s.setFlag f).sp = s.sp := rfl
@[simp] theorem State.setFlag_stack (f : Byte) : (s.setFlag f).stack = s.stack := rfl
@[simp] theorem State.setFlag_dt (f : Byte) : (s.setFlag f).dt = s.dt := rfl
@[simp] theorem State.setFlag_st (f : Byte) : (s.setFlag f).st = s.st := rfl
@[simp] theorem State.setFlag_key (f : Byte) : (s.setFlag f).key = s.key := rfl
@[simp] theorem State.setFlag_mem (f : Byte) : (s.setFlag f).mem = s.mem := rfl
@[simp] theorem State.setFlag_disp (f : Byte) : (s.setFlag f).disp = s.disp := rfl
@[simp] theorem State.setFlag_fault (f : Byte) : (s.setFlag f).fault = s.fault := rfl
@[simp] theorem State.setFlag_rndDraws (f : Byte) : (s.setFlag f).rndDraws = s.rndDraws := rfl

@[simp] theorem State.writeFlagThenResult_iReg (f : Byte) (x : RegIdx) (b : Byte) : (s.writeFlagThenResult f x b).iReg = s.iReg := rfl
@[simp] theorem State.writeFlagThenResult_pc (f : Byte) (x : RegIdx) (b : Byte) : (s.writeFlagThenResult f x b).pc = s.pc := rfl
@[simp] theorem State.writeFlagThenResult_sp (f : Byte) (x : RegIdx) (b : Byte) : (s.writeFlagThenResult f x b).sp = s.sp := rfl
@[simp] theorem State.writeFlagThenResult_stack (f : Byte) (x : RegIdx) (b : Byte) : (s.writeFlagThenResult f x b).stack = s.stack := rfl
@[simp] theorem State.writeFlagThenResult_dt (f : Byte) (x : RegIdx) (b : Byte) : (s.writeFlagThenResult f x b).dt = s.dt := rfl
@[simp] theorem State.writeFlagThenResult_st (f : Byte) (x : RegIdx) (b : Byte) : (s.writeFlagThenResult f x b).st = s.st := rfl
@[simp] theorem State.writeFlagThenResult_key (f : Byte) (x : RegIdx) (b : Byte) : (s.writeFlagThenResult f x b).key = s.key := rfl
@[simp] theorem State.writeFlagThenResult_mem (f : Byte) (x : RegIdx) (b : Byte) : (s.writeFlagThenResult f x b).mem = s.mem := rfl
@[simp] theorem State.writeFlagThenResult_disp (f : Byte) (x : RegIdx) (b : Byte) : (s.writeFlagThenResult f x b).disp = s.disp := rfl
@[simp] theorem State.writeFlagThenResult_fault (f : Byte) (x : RegIdx) (b : Byte) : (s.writeFlagThenResult f x b).fault = s.fault := rfl
@[simp] theorem State.writeFlagThenResult_rndDraws (f : Byte) (x : RegIdx) (b : Byte) : (s.writeFlagThenResult f x b).rndDraws = s.rndDraws := rfl

@[simp] theorem State.skipIf_v (c : Bool) : (s.skipIf c).v = s.v := by cases c <;> rfl
@[simp] theorem State.skipIf_iReg (c : Bool) : (s.skipIf c).iReg = s.iReg := by cases c <;> rfl
@[simp] theorem State.skipIf_pc (c : Bool) : (s.skipIf c).pc = if c then s.pc + 2 else s.pc := by cases c <;> rfl
@[simp] theorem State.skipIf_sp (c : Bool) : (s.skipIf c).sp = s.sp := by cases c <;> rfl
@[simp] theorem State.skipIf_stack (c : Bool) : (s.skipIf c).stack = s.stack := by cases c <;> rfl
@[simp] theorem State.skipIf_dt (c : Bool) : (s.skipIf c).dt = s.dt := by cases c <;> rfl
@[simp] theorem State.skipIf_st (c : Bool) : (s.skipIf c).st = s.st := by cases c <;> rfl
@[simp] theorem State.skipIf_key (c : Bool) : (s.skipIf c).key = s.key := by cases c <;> rfl
@[simp] theorem State.skipIf_mem (c : Bool) : (s.skipIf c).mem = s.mem := by cases c <;> rfl
@[simp] theorem State.skipIf_disp (c : Bool) : (s.skipIf c).disp = s.disp := by cases c <;> rfl
@[simp] theorem State.skipIf_fault (c : Bool) : (s.skipIf c).fault = s.fault := by cases c <;> rfl
@[simp] theorem State.skipIf_rndDraws (c : Bool) : (s.skipIf c).rndDraws = s.rndDraws := by cases c <;> rfl

@[simp] theorem State.tick_v : s.tick.v = s.v := rfl
@[simp] theorem State.tick_iReg : s.tick.iReg = s.iReg := rfl
@[simp] theorem State.tick_pc : s.tick.pc = s.pc := rfl
@[simp] theorem State.tick_sp : s.tick.sp = s.sp := rfl
@[simp] theorem State.tick_stack : s.tick.stack = s.stack := rfl
@[simp] theorem State.tick_dt : s.tick.dt = countDown s.dt := rfl
@[simp] theorem State.tick_st : s.tick.st = countDown s.st := rfl
@[simp] theorem State.tick_key : s.tick.key = s.key := rfl
@[simp] theorem State.tick_mem : s.tick.mem = s.mem := rfl
@[simp] theorem State.tick_disp : s.tick.disp = s.disp := rfl
@[simp] theorem State.tick_fault : s.tick.fault = s.fault := rfl
@[simp] theorem State.tick_rndDraws : s.tick.rndDraws = s.rndDraws := rfl

@[simp] theorem State.setKey_v (k : KeyCode) (b : Bool) : (s.setKey k b).v = s.v := rfl
@[simp] theorem State.setKey_iReg (k : KeyCode) (b : Bool) : (s.setKey k b).iReg = s.iReg := rfl
@[simp] theorem State.setKey_pc (k : KeyCode) (b : Bool) : (s.setKey k b).pc = s.pc := rfl
@[simp] theorem State.setKey_sp (k : KeyCode) (b : Bool) : (s.setKey k b).sp = s.sp := rfl
@[simp] theorem State.setKey_stack (k : KeyCode) (b : Bool) : (s.setKey k b).stack = s.stack := rfl
@[simp] theorem State.setKey_dt (k : KeyCode) (b : Bool) : (s.setKey k b).dt = s.dt := rfl
@[simp] theorem State.setKey_st (k : KeyCode) (b : Bool) : (s.setKey k b).st = s.st := rfl
@[simp] theorem State.setKey_key (k : KeyCode) (b : Bool) : (s.setKey k b).key = s.key.set k.toNat b k.isLt := rfl
@[simp] theorem State.setKey_mem (k : KeyCode) (b : Bool) : (s.setKey k b).mem = s.mem := rfl
@[simp] theorem State.setKey_disp (k : KeyCode) (b : Bool) : (s.setKey k b).disp = s.disp := rfl
@[simp] theorem State.setKey_fault (k : KeyCode) (b : Bool) : (s.setKey k b).fault = s.fault := rfl
@[simp] theorem State.setKey_rndDraws (k : KeyCode) (b : Bool) : (s.setKey k b).rndDraws = s.rndDraws := rfl

@[simp] theorem State.keyPress_v (k : KeyCode) : (s.keyPress k).v = s.v := rfl
@[simp] theorem State.keyPress_iReg (k : KeyCode) : (s.keyPress k).iReg = s.iReg := rfl
@[simp] theorem State.keyPress_pc (k : KeyCode) : (s.keyPress k).pc = s.pc := rfl
@[simp] theorem State.keyPress_sp (k : KeyCode) : (s.keyPress k).sp = s.sp := rfl
@[simp] theorem State.keyPress_stack (k : KeyCode) : (s.keyPress k).stack = s.stack := rfl
@[simp] theorem State.keyPress_dt (k : KeyCode) : (s.keyPress k).dt = s.dt := rfl
@[simp] theorem State.keyPress_st (k : KeyCode) : (s.keyPress k).st = s.st := rfl
@[simp] theorem State.keyPress_key (k : KeyCode) : (s.keyPress k).key = s.key.set k.toNat true k.isLt := rfl
@[simp] theorem State.keyPress_mem (k : KeyCode) : (s.keyPress k).mem = s.mem := rfl
@[simp] theorem State.keyPress_disp (k : KeyCode) : (s.keyPress k).disp = s.disp := rfl
@[simp] theorem State.keyPress_fault (k : KeyCode) : (s.keyPress k).fault = s.fault := rfl
@[simp] theorem State.keyPress_rndDraws (k : KeyCode) : (s.keyPress k).rndDraws = s.rndDraws := rfl

@[simp] theorem State.keyRelease_v (k : KeyCode) : (s.keyRelease k).v = s.v := rfl
@[simp] theorem State.keyRelease_iReg (k : KeyCode) : (s.keyRelease k).iReg = s.iReg := rfl
@[simp] theorem State.keyRelease_pc (k : KeyCode) : (s.keyRelease k).pc = s.pc := rfl
@[simp] theorem State.keyRelease_sp (k : KeyCode) : (s.keyRelease k).sp = s.sp := rfl
@[simp] theorem State.keyRelease_stack (k : KeyCode) : (s.keyRelease k).stack = s.stack := rfl
@[simp] theorem State.keyRelease_dt (k : KeyCode) : (s.keyRelease k).dt = s.dt := rfl
@[simp] theorem State.keyRelease_st (k : KeyCode) : (s.keyRelease k).st = s.st := rfl
@[simp] theorem State.keyRelease_key (k : KeyCode) : (s.keyRelease k).key = s.key.set k.toNat false k.isLt := rfl
@[simp] theorem State.keyRelease_mem (k : KeyCode) : (s.keyRelease k).mem = s.mem := rfl
@[simp] theorem State.keyRelease_disp (k : KeyCode) : (s.keyRelease k).disp = s.disp := rfl
@[simp] theorem State.keyRelease_fault (k : KeyCode) : (s.keyRelease k).fault = s.fault := rfl
@[simp] theorem State.keyRelease_rndDraws (k : KeyCode) : (s.keyRelease k).rndDraws = s.rndDraws := rfl

/-! ## Reading a register after an update -/

theorem State.V_def (x : RegIdx) : s.V x = s.v[x.toNat]'x.isLt := rfl

@[simp] theorem State.V_setV (x y : RegIdx) (b : Byte) : (s.setV x b).V y = if y = x then b else s.V y := by
  unfold State.V State.setV
  simp only [Vector.getElem_set, BitVec.toNat_inj]
  split
  · next h => simp [h]
  · next h => simp [Ne.symm h]

@[simp] theorem State.V_setFlag (f : Byte) (y : RegIdx) :
    (s.setFlag f).V y = if y = 15#4 then f else s.V y := State.V_setV s _ y f

@[simp] theorem State.V_writeFlagThenResult (f : Byte) (x : RegIdx) (b : Byte) (y : RegIdx) :
    (s.writeFlagThenResult f x b).V y = if y = x then b else if y = 15#4 then f else s.V y := by
  simp only [State.writeFlagThenResult, State.V_setV, State.V_setFlag]

@[simp] theorem State.V_setI (w : Word) (x : RegIdx) : (s.setI w).V x = s.V x := rfl
@[simp] theorem State.V_setPc (w : Word) (x : RegIdx) : (s.setPc w).V x = s.V x := rfl
@[simp] theorem State.V_advance (x : RegIdx) : s.advance.V x = s.V x := rfl
@[simp] theorem State.V_takeFault (pc0 : Word) (code : FaultCode) (instr addr : Word) (x : RegIdx) : (s.takeFault pc0 code instr addr).V x = s.V x := rfl
@[simp] theorem State.V_fetchFault (a : Word) (x : RegIdx) : (s.fetchFault a).V x = s.V x := rfl
@[simp] theorem State.V_tick (x : RegIdx) : s.tick.V x = s.V x := rfl
@[simp] theorem State.V_setKey (k : KeyCode) (b : Bool) (x : RegIdx) : (s.setKey k b).V x = s.V x := rfl
@[simp] theorem State.V_skipIf (c : Bool) (x : RegIdx) : (s.skipIf c).V x = s.V x := by cases c <;> rfl

/-- Two states with the same registers, one by one, have the same register file. -/
theorem State.v_ext {s t : State} (h : ∀ x, s.V x = t.V x) : s.v = t.v := by
  apply Vector.ext
  intro k hk
  have := h (BitVec.ofNat 4 k)
  have hk' : (BitVec.ofNat 4 k).toNat = k := by simp [Nat.mod_eq_of_lt hk]
  simpa [State.V, hk'] using this

/-! ## Reading a stack slot after an update that leaves the stack alone -/

@[simp] theorem State.slot_setV (x : RegIdx) (b : Byte) (j : Nat) : (s.setV x b).slot j = s.slot j := rfl
@[simp] theorem State.slot_setI (w : Word) (j : Nat) : (s.setI w).slot j = s.slot j := rfl
@[simp] theorem State.slot_setPc (w : Word) (j : Nat) : (s.setPc w).slot j = s.slot j := rfl
@[simp] theorem State.slot_advance (j : Nat) : s.advance.slot j = s.slot j := rfl
@[simp] theorem State.slot_takeFault (pc0 : Word) (code : FaultCode) (instr addr : Word) (j : Nat) : (s.takeFault pc0 code instr addr).slot j = s.slot j := rfl
@[simp] theorem State.slot_skipIf (c : Bool) (j : Nat) : (s.skipIf c).slot j = s.slot j := by cases c <;> rfl

/-! ## A reset by the host: every field is that of the reset state, but the model's own count -/

@[simp] theorem State.hostReset_rndDraws (P : Params) : (s.hostReset P).rndDraws = s.rndDraws := rfl
theorem State.hostReset_eq (P : Params) : { s.hostReset P with rndDraws := 0 } = State.resetWith P := rfl

/-! ## The key flags -/

@[simp] theorem State.keyDown_setKey (k j : KeyCode) (b : Bool) :
    (s.setKey k b).keyDown j = if j = k then b else s.keyDown j := by
  unfold State.keyDown State.setKey
  simp only [Vector.getElem_set, BitVec.toNat_inj]
  split
  · next h => simp [h]
  · next h => simp [Ne.symm h]

/-- A key is in the set `D` exactly when it is down (R163). -/
theorem State.mem_keysDown (k : KeyCode) : k ∈ s.keysDown ↔ s.keyDown k = true := by
  unfold State.keysDown
  simp only [List.mem_filter, List.mem_map, List.mem_range, and_iff_right_iff_imp]
  exact fun _ => ⟨k.toNat, k.isLt, by simp⟩

/-! ## The register block of `reg-load` -/

theorem writeRegs_getElem (bs : List Byte) (v : Vector Byte 16) (k j : Nat) (hj : j < 16) :
    (writeRegs v k bs)[j] = if k ≤ j ∧ j < k + bs.length then bs.getD (j - k) 0 else v[j] := by
  induction bs generalizing v k with
  | nil =>
    have : ¬ (k ≤ j ∧ j < k) := by omega
    simp [writeRegs, this]
  | cons b bs ih =>
    simp only [writeRegs, ih, List.length_cons]
    by_cases h1 : k = j
    · subst h1
      simp
    · rw [Vector.getElem_setIfInBounds, if_neg h1]
      by_cases h2 : k + 1 ≤ j ∧ j < k + 1 + bs.length
      · have e : j - k = (j - (k + 1)) + 1 := by omega
        have h3 : k ≤ j ∧ j < k + (bs.length + 1) := by omega
        rw [if_pos h2, if_pos h3, e, List.getD_cons_succ]
      · have h3 : ¬ (k ≤ j ∧ j < k + (bs.length + 1)) := by omega
        rw [if_neg h2, if_neg h3]

/-- `V[y]` after a block load: the byte of its place in the block, or the old value (R145). -/
theorem State.V_loadRegs (bs : List Byte) (y : RegIdx) :
    (s.loadRegs bs).V y = if y.toNat < bs.length then bs.getD y.toNat 0 else s.V y := by
  unfold State.V State.loadRegs
  simp [writeRegs_getElem]

end Sys2Proof.Machine
end

