-- ==== Sys2Proof/Laws/Ops.lean ====
section
/-! SUPPORT. What each shared operation can answer: the stack, taking a fault, skips, fetching, an unknown word, a step. -/

namespace Sys2Proof.Machine

/-! ## The call stack -/

/-- Everything a push can answer (R15). -/
theorem State.push_cases (depth : Nat) (w : Word) (s : State) :
    (s.sp < depth ∧ s.push depth w = some { s with stack := s.stack.set s.sp w, sp := s.sp + 1 }) ∨
      (depth ≤ s.sp ∧ s.push depth w = none) := by
  by_cases h : s.sp < depth
  · exact .inl ⟨h, if_pos h⟩
  · exact .inr ⟨Nat.not_lt.1 h, if_neg h⟩

/-- Everything a pop can answer (R15). -/
theorem State.pop_cases (s : State) :
    (0 < s.sp ∧ s.pop = some (s.slot (s.sp - 1), { s with sp := s.sp - 1 })) ∨ (s.sp = 0 ∧ s.pop = none) := by
  by_cases h : 0 < s.sp
  · exact .inl ⟨h, if_pos h⟩
  · exact .inr ⟨by omega, if_neg h⟩

/-- A slot after a slot of the stack was written. -/
theorem State.slot_set (s t : State) {k : Nat} {w : Word} (hk : k < s.stack.length) (ht : t.stack = s.stack.set k w)
    (j : Nat) : t.slot j = if j = k then w else s.slot j := by
  unfold State.slot
  rw [ht, List.getD_eq_getElem?_getD, List.getElem?_set, List.getD_eq_getElem?_getD]
  by_cases h : k = j
  · subst h
    simp [hk]
  · simp [h, Ne.symm h]

/-- A slot that was not written, wherever the written one lies. -/
theorem State.slot_set_ne (s t : State) {k : Nat} {w : Word} (ht : t.stack = s.stack.set k w) {j : Nat} (h : j ≠ k) :
    t.slot j = s.slot j := by
  unfold State.slot
  rw [ht, List.getD_eq_getElem?_getD, List.getElem?_set_ne (Ne.symm h), List.getD_eq_getElem?_getD]

/-! ## Taking a fault -/

/-- A raise always answers the fault entry, a next state (R177). -/
theorem raise_eq (i : Instr) (code : FaultCode) (addr : Word) (s : State) :
    raise i code addr s = .next (s.takeFault (s.pc - 2) code (encode i) addr) := rfl

/-! ## Fetching -/

/-- Everything a fetch can answer (R81): it succeeds exactly when `PC` is at most 4094. -/
theorem State.fetch_eq (s : State) :
    s.fetch =
      if 4094 < s.pc.toNat then .error (BitVec.ofNat 16 (max s.pc.toNat 4096))
      else .ok (joinBytes (Memory.read s.mem s.pc.toNat) (Memory.read s.mem (s.pc.toNat + 1))) := by
  unfold State.fetch
  rw [State.readBytes_eq]
  by_cases h : 4094 < s.pc.toNat
  · rw [if_pos h, if_pos ⟨by omega, by omega⟩]
  · rw [if_neg h, if_neg (by omega)]
    simp [List.range_succ]

/-! ## A step -/

/-- Under the default setting an instruction does what `exec` says. -/
@[simp] theorem execWith_params (i : Instr) (s : State) : execWith Config.params i s = exec i s := by
  cases i <;> rfl

/-- Only `call` and `wait-key` depend on a parameter (R6). -/
theorem execWith_eq (P : Params) (i : Instr) (s : State) (hc : ∀ nnn, i ≠ .call nnn) (hw : ∀ x, i ≠ .waitKey x) :
    execWith P i s = exec i s := by
  cases i
  case call nnn => exact absurd rfl (hc nnn)
  case waitKey x => exact absurd rfl (hw x)
  all_goals rfl

/-- A halted core answers itself (R85). -/
theorem stepWith_halted (P : Params) {s : State} (h : s.fault.valid = true) : stepWith P s = .next s := by
  simp [stepWith, h]

/-- A fetch beyond the memory (R81, R177). -/
theorem stepWith_fetch_fault (P : Params) {s : State} (h : s.fault.valid = false) (hpc : 4094 < s.pc.toNat) :
    stepWith P s = .next (s.takeFault s.pc .memRange 0 (BitVec.ofNat 16 (max s.pc.toNat 4096))) := by
  simp [stepWith, h, State.fetch_eq, hpc, State.fetchFault]

/-- A word that decodes is executed after the advance of `PC` (R80 to R84). -/
theorem stepWith_decoded (P : Params) {s : State} {i : Instr} (h : s.fault.valid = false) (hpc : s.pc.toNat ≤ 4094)
    (hi : decode (joinBytes (Memory.read s.mem s.pc.toNat) (Memory.read s.mem (s.pc.toNat + 1))) = .ok i) :
    stepWith P s = execWith P i s.advance := by
  simp [stepWith, h, State.fetch_eq, Nat.not_lt.2 hpc, hi]

/-- A word that does not decode is an unknown opcode, and the policy decides (R174). -/
theorem stepWith_unknown (P : Params) {s : State} {e : DecodeError} (h : s.fault.valid = false) (hpc : s.pc.toNat ≤ 4094)
    (hi : decode (joinBytes (Memory.read s.mem s.pc.toNat) (Memory.read s.mem (s.pc.toNat + 1))) = .error e) :
    stepWith P s = .next (s.advance.unknownOpcode P.unknownOpcodePolicy
      (joinBytes (Memory.read s.mem s.pc.toNat) (Memory.read s.mem (s.pc.toNat + 1)))) := by
  simp [stepWith, h, State.fetch_eq, Nat.not_lt.2 hpc, hi]

/-- Everything a step can do under any parameters: one of the four ways above (R80, R179). -/
theorem stepWith_cases (P : Params) (s : State) :
    (s.fault.valid = true ∧ stepWith P s = .next s) ∨
    (s.fault.valid = false ∧ 4094 < s.pc.toNat ∧
      stepWith P s = .next (s.takeFault s.pc .memRange 0 (BitVec.ofNat 16 (max s.pc.toNat 4096)))) ∨
    (s.fault.valid = false ∧ s.pc.toNat ≤ 4094 ∧ ∃ i,
      decode (joinBytes (Memory.read s.mem s.pc.toNat) (Memory.read s.mem (s.pc.toNat + 1))) = .ok i ∧
      stepWith P s = execWith P i s.advance) ∨
    (s.fault.valid = false ∧ s.pc.toNat ≤ 4094 ∧ ∃ e,
      decode (joinBytes (Memory.read s.mem s.pc.toNat) (Memory.read s.mem (s.pc.toNat + 1))) = .error e ∧
      stepWith P s = .next (s.advance.unknownOpcode P.unknownOpcodePolicy
        (joinBytes (Memory.read s.mem s.pc.toNat) (Memory.read s.mem (s.pc.toNat + 1))))) := by
  by_cases h : s.fault.valid = true
  · exact .inl ⟨h, stepWith_halted P h⟩
  · rw [Bool.not_eq_true] at h
    by_cases hpc : 4094 < s.pc.toNat
    · exact .inr (.inl ⟨h, hpc, stepWith_fetch_fault P h hpc⟩)
    · have hpc' := Nat.not_lt.1 hpc
      cases hd : decode (joinBytes (Memory.read s.mem s.pc.toNat) (Memory.read s.mem (s.pc.toNat + 1))) with
      | ok i => exact .inr (.inr (.inl ⟨h, hpc', i, rfl, stepWith_decoded P h hpc' hd⟩))
      | error e => exact .inr (.inr (.inr ⟨h, hpc', e, rfl, stepWith_unknown P h hpc' hd⟩))

/-- What the fetched word decides: the instruction it decodes to is executed under the parameters (R83, R84). -/
theorem stepWith_run (P : Params) {s : State} {w : Word} {i : Instr} (h : s.fault.valid = false) (hf : s.fetch = .ok w)
    (hi : decode w = .ok i) : stepWith P s = execWith P i s.advance := by
  simp [stepWith, h, hf, hi]

/-- The same under the default setting. -/
theorem step_run {s : State} {w : Word} {i : Instr} (h : s.fault.valid = false) (hf : s.fetch = .ok w)
    (hi : decode w = .ok i) : step s = exec i s.advance := (stepWith_run _ h hf hi).trans (execWith_params ..)

/-- A halted core answers itself (R85). -/
theorem step_halted {s : State} (h : s.fault.valid = true) : step s = .next s := stepWith_halted _ h

/-- A fetch beyond the memory (R81, R177). -/
theorem step_fetch_fault {s : State} (h : s.fault.valid = false) (hpc : 4094 < s.pc.toNat) :
    step s = .next (s.takeFault s.pc .memRange 0 (BitVec.ofNat 16 (max s.pc.toNat 4096))) := stepWith_fetch_fault _ h hpc

/-- A word that decodes is executed after the advance of `PC` (R80 to R84). -/
theorem step_decoded {s : State} {i : Instr} (h : s.fault.valid = false) (hpc : s.pc.toNat ≤ 4094)
    (hi : decode (joinBytes (Memory.read s.mem s.pc.toNat) (Memory.read s.mem (s.pc.toNat + 1))) = .ok i) :
    step s = exec i s.advance := (stepWith_decoded _ h hpc hi).trans (execWith_params ..)

/-- A word that does not decode takes the fault `UnknownOpcode` (R174; log 4). -/
theorem step_unknown {s : State} {e : DecodeError} (h : s.fault.valid = false) (hpc : s.pc.toNat ≤ 4094)
    (hi : decode (joinBytes (Memory.read s.mem s.pc.toNat) (Memory.read s.mem (s.pc.toNat + 1))) = .error e) :
    step s = .next (s.advance.unknownOpcode .fault
      (joinBytes (Memory.read s.mem s.pc.toNat) (Memory.read s.mem (s.pc.toNat + 1)))) := stepWith_unknown _ h hpc hi

/-- Everything a step can do: one of the four ways above (R80, R179). -/
theorem step_cases (s : State) :
    (s.fault.valid = true ∧ step s = .next s) ∨
    (s.fault.valid = false ∧ 4094 < s.pc.toNat ∧
      step s = .next (s.takeFault s.pc .memRange 0 (BitVec.ofNat 16 (max s.pc.toNat 4096)))) ∨
    (s.fault.valid = false ∧ s.pc.toNat ≤ 4094 ∧ ∃ i,
      decode (joinBytes (Memory.read s.mem s.pc.toNat) (Memory.read s.mem (s.pc.toNat + 1))) = .ok i ∧
      step s = exec i s.advance) ∨
    (s.fault.valid = false ∧ s.pc.toNat ≤ 4094 ∧ ∃ e,
      decode (joinBytes (Memory.read s.mem s.pc.toNat) (Memory.read s.mem (s.pc.toNat + 1))) = .error e ∧
      step s = .next (s.advance.unknownOpcode .fault
        (joinBytes (Memory.read s.mem s.pc.toNat) (Memory.read s.mem (s.pc.toNat + 1))))) := by
  have h := stepWith_cases Config.params s
  simp only [execWith_params] at h
  exact h

/-- An unknown word under the policy `Fault` (R174). -/
theorem State.unknownOpcode_fault (w : Word) (s : State) :
    State.unknownOpcode .fault w s = s.takeFault (s.pc - 2) .unknownOpcode w 0 := rfl

/-- An unknown word under the policy `Nop` (R174). -/
theorem State.unknownOpcode_nop (w : Word) (s : State) : State.unknownOpcode .nop w s = s := rfl

end Sys2Proof.Machine
end

