-- ==== Sys2Proof/Laws/PerInstr.lean ====
section
/-! SUPPORT. A fact about the syntax of every instruction, one lemma per constructor: its word has the fixed bits of its row of
the opcode table (spec R62 to R69). -/

namespace Sys2Proof.Laws.EncodeRow

/-- The word of the instruction lies in the row of its operation: under the row's mask it is the row's match. -/
def Statement (i : Instr) : Prop := encode i &&& i.mnemonic.format.mask = i.mnemonic.bits

theorem clearScreen : Statement .clearScreen := rfl
theorem ret : Statement .ret := rfl
theorem jump (nnn : Addr12) : Statement (.jump nnn) := mask_addr ..
theorem call (nnn : Addr12) : Statement (.call nnn) := mask_addr ..
theorem skipEqImm (x : RegIdx) (nn : Byte) : Statement (.skipEqImm x nn) := mask_byte ..
theorem skipNeImm (x : RegIdx) (nn : Byte) : Statement (.skipNeImm x nn) := mask_byte ..
theorem skipEqReg (x : RegIdx) (y : RegIdx) : Statement (.skipEqReg x y) := mask_nibbleSelector ..
theorem setImm (x : RegIdx) (nn : Byte) : Statement (.setImm x nn) := mask_byte ..
theorem addImm (x : RegIdx) (nn : Byte) : Statement (.addImm x nn) := mask_byte ..
theorem copyReg (x : RegIdx) (y : RegIdx) : Statement (.copyReg x y) := mask_nibbleSelector ..
theorem orReg (x : RegIdx) (y : RegIdx) : Statement (.orReg x y) := mask_nibbleSelector ..
theorem andReg (x : RegIdx) (y : RegIdx) : Statement (.andReg x y) := mask_nibbleSelector ..
theorem xorReg (x : RegIdx) (y : RegIdx) : Statement (.xorReg x y) := mask_nibbleSelector ..
theorem addReg (x : RegIdx) (y : RegIdx) : Statement (.addReg x y) := mask_nibbleSelector ..
theorem subReg (x : RegIdx) (y : RegIdx) : Statement (.subReg x y) := mask_nibbleSelector ..
theorem shrReg (x : RegIdx) (y : RegIdx) : Statement (.shrReg x y) := mask_nibbleSelector ..
theorem subnReg (x : RegIdx) (y : RegIdx) : Statement (.subnReg x y) := mask_nibbleSelector ..
theorem shlReg (x : RegIdx) (y : RegIdx) : Statement (.shlReg x y) := mask_nibbleSelector ..
theorem skipNeReg (x : RegIdx) (y : RegIdx) : Statement (.skipNeReg x y) := mask_nibbleSelector ..
theorem setI (nnn : Addr12) : Statement (.setI nnn) := mask_addr ..
theorem jumpOffset (nnn : Addr12) : Statement (.jumpOffset nnn) := mask_addr ..
theorem rand (x : RegIdx) (nn : Byte) : Statement (.rand x nn) := mask_byte ..
theorem draw (x : RegIdx) (y : RegIdx) (n : Nibble) : Statement (.draw x y n) := mask_nibbles ..
theorem skipKeyPressed (x : RegIdx) : Statement (.skipKeyPressed x) := mask_byteSelector ..
theorem skipKeyReleased (x : RegIdx) : Statement (.skipKeyReleased x) := mask_byteSelector ..
theorem getDelay (x : RegIdx) : Statement (.getDelay x) := mask_byteSelector ..
theorem waitKey (x : RegIdx) : Statement (.waitKey x) := mask_byteSelector ..
theorem setDelay (x : RegIdx) : Statement (.setDelay x) := mask_byteSelector ..
theorem setSound (x : RegIdx) : Statement (.setSound x) := mask_byteSelector ..
theorem addI (x : RegIdx) : Statement (.addI x) := mask_byteSelector ..
theorem fontChar (x : RegIdx) : Statement (.fontChar x) := mask_byteSelector ..
theorem storeBcd (x : RegIdx) : Statement (.storeBcd x) := mask_byteSelector ..
theorem regDump (x : RegIdx) : Statement (.regDump x) := mask_byteSelector ..
theorem regLoad (x : RegIdx) : Statement (.regLoad x) := mask_byteSelector ..

end Sys2Proof.Laws.EncodeRow
end

