-- ==== Sys2Proof/Tests/Slice0.lean ====
section
/-! SUPPORT. The model's own tests: ill-formed assembly lines, words written out from the spec's encodings, one small step for
each instruction (expected values from the vectors V1 to V61 of spec/95_test_vectors.md), and a witness for the
hypotheses of every statement. -/

namespace Sys2Proof.Tests

open Sys2Proof Sys2Proof.Machine

/-- The outcome is a next state with the property. -/
def gives (o : Host.Outcome State Fault Refusal) (p : State → Bool) : Bool :=
  match o with
  | .next t => p t
  | .fault _ => false
  | .refused _ => false

/-- The reset state with some registers set. -/
def withRegs (l : List (RegIdx × Byte)) : State := l.foldl (fun s p => s.setV p.1 p.2) State.reset

/-- The reset state with the address register and some bytes of memory set. -/
def withMem (i : Word) (m : Memory) (l : List (RegIdx × Byte)) : State := { withRegs l with iReg := i, mem := m }

/-- One step of a state whose next instruction is the word `w` leads to a state with the property. -/
def stepGives (w : Nat) (s : State) (p : State → Bool) : Bool := gives (step (s.withFetchWord 16 w)) p

/-- A state with `n` saved return addresses, all 0x0202. -/
def withCalls (n : Nat) : State := { State.reset with sp := n, stack := List.replicate Config.stackDepth 0x0202 }

/-- The reset state with the keys of a list down. -/
def withKeys (ks : List KeyCode) (l : List (RegIdx × Byte)) : State := ks.foldl State.keyPress (withRegs l)

/-- The pixels that are on, row by row. -/
def lit (s : State) : List (Nat × Nat) :=
  (List.range 32).flatMap fun y =>
    if s.disp.toArray.getD y 0 = 0 then []
    else ((List.range 64).filter fun x => (s.disp.toArray.getD y 0).getLsbD x).map fun x => (y, x)

/-! ## Well-formed and ill-formed assembly lines (R73) -/

theorem test_wf_accepts_a_fitting_line : AsmLine.wf ⟨.draw, [15, 15, 15]⟩ = true ∧ AsmLine.wf ⟨.jump, [4095]⟩ = true ∧
    AsmLine.wf ⟨.setImm, [15, 255]⟩ = true ∧ AsmLine.wf ⟨.clearScreen, []⟩ = true := by decide
theorem test_wf_refuses_register_16 : AsmLine.wf ⟨.addReg, [16, 0]⟩ = false ∧ AsmLine.wf ⟨.addReg, [0, 16]⟩ = false := by
  decide
theorem test_wf_refuses_nibble_16 : AsmLine.wf ⟨.draw, [0, 0, 16]⟩ = false := by decide
theorem test_wf_refuses_byte_256 : AsmLine.wf ⟨.setImm, [0, 256]⟩ = false := by decide
theorem test_wf_refuses_address_4096 : AsmLine.wf ⟨.jump, [4096]⟩ = false := by decide
theorem test_wf_refuses_a_missing_operand : AsmLine.wf ⟨.setImm, [0]⟩ = false := by decide
theorem test_wf_refuses_an_extra_operand : AsmLine.wf ⟨.shrReg, [1, 2]⟩ = false := by decide
theorem test_assemble_shr_has_y_zero : assemble ⟨.shrReg, [1]⟩ = .ok (.shrReg 1 0) ∧
    encode (.shrReg 1 0) = 0x8106 := by decide
theorem test_assemble_refuses_by_name : assemble ⟨.jump, [4096]⟩ = .error .operandsDoNotFit := by decide

/-! ## Words written out from the spec's encodings (R61 to R70) -/

theorem test_decode_system : decode 0b0000000011100000 = .ok .clearScreen ∧ decode 0b0000000011101110 = .ok .ret ∧
    decode 0x0123 = .error .unknownSystemWord ∧ decode 0x00E1 = .error .unknownSystemWord := by decide
theorem test_decode_addresses : decode 0b0001001000110100 = .ok (.jump 0x234) ∧
    decode 0b0010001000010000 = .ok (.call 0x210) ∧ decode 0b1010001100000000 = .ok (.setI 0x300) ∧
    decode 0b1011001000000110 = .ok (.jumpOffset 0x206) := by decide
theorem test_decode_immediates : decode 0b0011010100001000 = .ok (.skipEqImm 5 8) ∧
    decode 0b0100001100001000 = .ok (.skipNeImm 3 8) ∧ decode 0b0110001100101010 = .ok (.setImm 3 0x2A) ∧
    decode 0b0111000000001010 = .ok (.addImm 0 10) ∧ decode 0b1100001000001111 = .ok (.rand 2 0x0F) := by decide
theorem test_decode_compare : decode 0b0101000100100000 = .ok (.skipEqReg 1 2) ∧
    decode 0b1001101010110000 = .ok (.skipNeReg 10 11) ∧ decode 0x5121 = .error .unknownCompareSelector ∧
    decode 0x9AB1 = .error .unknownCompareSelector := by decide
theorem test_decode_logic : decode 0b1000000100100000 = .ok (.copyReg 1 2) ∧ decode 0b1000000100100001 = .ok (.orReg 1 2) ∧
    decode 0b1000000100100010 = .ok (.andReg 1 2) ∧ decode 0b1000000100100011 = .ok (.xorReg 1 2) := by decide
theorem test_decode_arithmetic : decode 0b1000000100100100 = .ok (.addReg 1 2) ∧
    decode 0b1000000100100101 = .ok (.subReg 1 2) ∧ decode 0b1000000111110110 = .ok (.shrReg 1 15) ∧
    decode 0b1000000100100111 = .ok (.subnReg 1 2) ∧ decode 0b1000000100101110 = .ok (.shlReg 1 2) ∧
    decode 0x8128 = .error .unknownAluSelector ∧ decode 0x812F = .error .unknownAluSelector := by decide
theorem test_decode_draw : decode 0b1101000100100011 = .ok (.draw 1 2 3) := by decide
theorem test_decode_key_skips : decode 0b1110000110011110 = .ok (.skipKeyPressed 1) ∧
    decode 0b1110000110100001 = .ok (.skipKeyReleased 1) ∧ decode 0xE000 = .error .unknownKeySelector ∧
    decode 0xE19F = .error .unknownKeySelector := by decide
theorem test_decode_misc_timers : decode 0b1111000100000111 = .ok (.getDelay 1) ∧
    decode 0b1111000000001010 = .ok (.waitKey 0) ∧ decode 0b1111001000010101 = .ok (.setDelay 2) ∧
    decode 0b1111001100011000 = .ok (.setSound 3) ∧ decode 0xF108 = .error .unknownMiscSelector := by decide
theorem test_decode_misc_memory : decode 0b1111001000011110 = .ok (.addI 2) ∧
    decode 0b1111001100101001 = .ok (.fontChar 3) ∧ decode 0b1111000000110011 = .ok (.storeBcd 0) ∧
    decode 0b1111001101010101 = .ok (.regDump 3) ∧ decode 0b1111001001100101 = .ok (.regLoad 2) ∧
    decode 0xF156 = .error .unknownMiscSelector := by decide
theorem test_decode_table_word : decodeTableWord 16 0x1234 = some (.jump 0x234) ∧
    decodeTableWord 16 0x0123 = none := by decide
/-- No word has the fixed bits of two rows: two rows differ in a bit that both fix. -/
theorem test_opcode_rows_do_not_overlap : Mnemonic.all.Pairwise fun a b =>
    a.bits &&& (a.format.mask &&& b.format.mask) ≠ b.bits &&& (a.format.mask &&& b.format.mask) := by decide

/-! ## One step each -/

/-- V40. -/
theorem test_clear_screen : stepGives 0x00E0 { withRegs [(15, 1)] with disp := Vector.replicate 32 5 }
    (fun t => lit t = [] && t.V 15 = 1) = true := by decide
/-- V11. -/
theorem test_call : stepGives 0x2210 { State.reset with pc := 0x204 }
    (fun t => t.pc = 0x210 && t.sp = 1 && t.slot 0 = 0x206) = true := by decide
/-- V11, V12. -/
theorem test_return : stepGives 0x00EE (withCalls 1) (fun t => t.pc = 0x202 && t.sp = 0) = true ∧
    stepGives 0x00EE State.reset
      (fun t => t.pc = 0x200 && t.fault = ⟨true, .stackUnderflow, 0x200, 0x00EE, 0⟩) = true := by decide
/-- V13, step 17. -/
theorem test_call_overflow : stepGives 0x2200 (withCalls 16)
    (fun t => t.pc = 0x200 && t.sp = 16 && t.fault = ⟨true, .stackOverflow, 0x200, 0x2200, 0⟩) = true := by decide
/-- V1. -/
theorem test_jump : stepGives 0x1234 State.reset (fun t => t.pc = 0x234) = true := by decide
/-- V14, V15. -/
theorem test_immediate_skips : stepGives 0x3000 State.reset (fun t => t.pc = 0x204) = true ∧
    stepGives 0x3000 (withRegs [(0, 1)]) (fun t => t.pc = 0x202) = true ∧
    stepGives 0x4308 (withRegs [(3, 7)]) (fun t => t.pc = 0x204) = true ∧
    stepGives 0x4308 (withRegs [(3, 8)]) (fun t => t.pc = 0x202) = true := by decide
/-- V17. -/
theorem test_register_skips : stepGives 0x5120 (withRegs [(1, 9), (2, 8)]) (fun t => t.pc = 0x202) = true ∧
    stepGives 0x9120 (withRegs [(1, 9), (2, 8)]) (fun t => t.pc = 0x204) = true ∧
    stepGives 0x5AA0 State.reset (fun t => t.pc = 0x204) = true := by decide
/-- V18, V19: above 4095, and odd. -/
theorem test_jump_offset : stepGives 0xBFFF (withRegs [(0, 0xFF)]) (fun t => t.pc = 0x10FE) = true ∧
    stepGives 0xB206 (withRegs [(0, 15)]) (fun t => t.pc = 0x215) = true := by decide
/-- V20: a taken skip at the top of memory. -/
theorem test_skip_past_the_top : stepGives 0x3000 { State.reset with pc := 0xFFE }
    (fun t => t.pc = 0x1002 && !t.fault.valid) = true := by decide
/-- V21. -/
theorem test_set_imm : stepGives 0x6FAB State.reset (fun t => t.V 15 = 0xAB) = true := by decide
/-- V22. -/
theorem test_add_imm_has_no_flag : stepGives 0x700A (withRegs [(0, 250), (15, 7)]) (fun t => t.V 0 = 4 && t.V 15 = 7) = true ∧
    stepGives 0x7F01 (withRegs [(15, 255)]) (fun t => t.V 15 = 0) = true := by decide
/-- V23. -/
theorem test_logic : stepGives 0x8120 (withRegs [(1, 0xF0), (2, 0x3C), (15, 9)]) (fun t => t.V 1 = 0x3C && t.V 15 = 9) = true ∧
    stepGives 0x8121 (withRegs [(1, 0xF0), (2, 0x3C), (15, 9)]) (fun t => t.V 1 = 0xFC && t.V 15 = 9) = true ∧
    stepGives 0x8122 (withRegs [(1, 0xF0), (2, 0x3C), (15, 9)]) (fun t => t.V 1 = 0x30 && t.V 15 = 9) = true ∧
    stepGives 0x8123 (withRegs [(1, 0xF0), (2, 0x3C), (15, 9)]) (fun t => t.V 1 = 0xCC && t.V 15 = 9) = true := by decide
/-- V25, V30: the carry, and register 15 as destination. -/
theorem test_add : stepGives 0x8124 (withRegs [(1, 200), (2, 100)]) (fun t => t.V 1 = 44 && t.V 15 = 1) = true ∧
    stepGives 0x8124 (withRegs [(1, 200), (2, 55)]) (fun t => t.V 1 = 255 && t.V 15 = 0) = true ∧
    stepGives 0x8F14 (withRegs [(15, 200), (1, 100)]) (fun t => t.V 15 = 44) = true ∧
    stepGives 0x81F4 (withRegs [(1, 250), (15, 10)]) (fun t => t.V 1 = 4 && t.V 15 = 1) = true := by decide
/-- V26, V30: equality is no borrow. -/
theorem test_sub : stepGives 0x8125 (withRegs [(1, 5), (2, 5)]) (fun t => t.V 1 = 0 && t.V 15 = 1) = true ∧
    stepGives 0x8125 (withRegs [(1, 5), (2, 6)]) (fun t => t.V 1 = 255 && t.V 15 = 0) = true ∧
    stepGives 0x8F15 (withRegs [(15, 3), (1, 5)]) (fun t => t.V 15 = 254) = true := by decide
/-- V26. -/
theorem test_subn : stepGives 0x8127 (withRegs [(1, 3), (2, 10)]) (fun t => t.V 1 = 7 && t.V 15 = 1) = true ∧
    stepGives 0x8127 (withRegs [(1, 10), (2, 3)]) (fun t => t.V 1 = 249 && t.V 15 = 0) = true := by decide
/-- V28, V30: `Y` is ignored. -/
theorem test_shr : stepGives 0x8126 (withRegs [(1, 0x05), (2, 0xFF)]) (fun t => t.V 1 = 2 && t.V 2 = 0xFF && t.V 15 = 1) = true ∧
    stepGives 0x8106 (withRegs [(1, 0xFE)]) (fun t => t.V 1 = 0x7F && t.V 15 = 0) = true ∧
    stepGives 0x8F06 (withRegs [(15, 3)]) (fun t => t.V 15 = 1) = true := by decide
/-- V29, V30. -/
theorem test_shl : stepGives 0x810E (withRegs [(1, 0xC1)]) (fun t => t.V 1 = 0x82 && t.V 15 = 1) = true ∧
    stepGives 0x810E (withRegs [(1, 0x7F)]) (fun t => t.V 1 = 0xFE && t.V 15 = 0) = true ∧
    stepGives 0x8F0E (withRegs [(15, 0x81)]) (fun t => t.V 15 = 2) = true := by decide
/-- V32: the random byte is a free value, masked; the next execution takes the next free value. -/
theorem test_rand : exec (.rand 2 0x0F) State.reset =
    .next ({ State.reset with rndDraws := 1 }.setV 2 (Config.randomByte 0 &&& 0x0F)) := rfl
/-- V33. -/
theorem test_set_i : stepGives 0xAFFF State.reset (fun t => t.iReg = 0x0FFF) = true := by decide
/-- V34: no flag, no fault, a 16-bit wrap. -/
theorem test_add_i : stepGives 0xF01E { withRegs [(0, 1), (15, 9)] with iReg := 0xFFF }
      (fun t => t.iReg = 0x1000 && t.V 15 = 9 && !t.fault.valid) = true ∧
    stepGives 0xF01E { withRegs [(0, 2)] with iReg := 0xFFFF } (fun t => t.iReg = 1) = true := by decide
/-- V24: the whole byte. -/
theorem test_font_char : stepGives 0xF329 (withRegs [(3, 0x0A)]) (fun t => t.iReg = 0x32) = true ∧
    stepGives 0xF329 (withRegs [(3, 0x1A)]) (fun t => t.iReg = 0x82) = true := by decide
/-- V27. -/
theorem test_store_bcd : stepGives 0xF033 (withMem 0x300 [] [(0, 157)])
    (fun t => Memory.read t.mem 0x300 = 1 && Memory.read t.mem 0x301 = 5 && Memory.read t.mem 0x302 = 7 && t.iReg = 0x300)
    = true := by decide
/-- V27: one byte too far. -/
theorem test_store_bcd_beyond_the_top : stepGives 0xF033 (withMem 0xFFE [] [(0, 255)])
    (fun t => Memory.read t.mem 0xFFE = 0 && t.pc = 0x200 && t.fault = ⟨true, .memRange, 0x200, 0xF033, 0x1000⟩)
    = true := by decide
/-- V31. -/
theorem test_reg_dump : stepGives 0xF355 (withMem 0x300 [] [(0, 1), (1, 2), (2, 3), (3, 4), (4, 5)])
    (fun t => (List.range 5).map (fun k => Memory.read t.mem (0x300 + k)) = [1, 2, 3, 4, 0] && t.iReg = 0x304)
    = true := by decide
/-- V31: the last base, and one beyond. -/
theorem test_reg_dump_at_the_top : stepGives 0xFF55 (withMem 0xFF0 [] [(15, 9)])
      (fun t => Memory.read t.mem 0xFFF = 9 && t.iReg = 0x1000 && !t.fault.valid) = true ∧
    stepGives 0xFF55 (withMem 0xFF1 [] [(0, 9)])
      (fun t => Memory.read t.mem 0xFF1 = 0 && t.iReg = 0xFF1 && t.fault.addr = 0x1000) = true := by decide
/-- V35. -/
theorem test_reg_load : stepGives 0xF265 (withMem 0x300 [(0x300, 1), (0x301, 5), (0x302, 7)] [(3, 9)])
    (fun t => [t.V 0, t.V 1, t.V 2, t.V 3] = [1, 5, 7, 9] && t.iReg = 0x303) = true := by decide
/-- V35: the lowest invalid address is the base itself. -/
theorem test_reg_load_beyond_the_top : stepGives 0xF065 (withMem 0x2000 [] [(0, 9)])
    (fun t => t.V 0 = 9 && t.iReg = 0x2000 && t.fault = ⟨true, .memRange, 0x200, 0xF065, 0x2000⟩) = true := by decide

set_option maxRecDepth 4000 in
/-- V44: eight columns, four of them wrapped. -/
theorem test_draw_wraps_columns : stepGives 0xD011 (withMem 0x300 [(0x300, 0xFF)] [(0, 60), (1, 5)])
    (fun t => lit t = [(5, 0), (5, 1), (5, 2), (5, 3), (5, 60), (5, 61), (5, 62), (5, 63)] && t.V 15 = 0) = true := by decide

set_option maxRecDepth 4000 in
/-- V46, V45: a collision, and the vertical wrap. -/
theorem test_draw_collides_and_wraps_rows :
    stepGives 0xD011 { withMem 0x300 [(0x300, 0xC0)] [] with disp := (Vector.replicate 32 0).set 0 1 }
      (fun t => lit t = [(0, 1)] && t.V 15 = 1) = true ∧
    stepGives 0xD012 (withMem 0x300 [(0x300, 0x80), (0x301, 0x80)] [(1, 31)])
      (fun t => lit t = [(0, 0), (31, 0)] && t.V 15 = 0) = true := by decide

/-- V50. -/
theorem test_key_skips : stepGives 0xE19E (withKeys [7] [(1, 7)]) (fun t => t.pc = 0x204) = true ∧
    stepGives 0xE1A1 (withKeys [7] [(1, 7)]) (fun t => t.pc = 0x202) = true ∧
    stepGives 0xE19E (withRegs [(1, 7)]) (fun t => t.pc = 0x202) = true ∧
    stepGives 0xE1A1 (withRegs [(1, 7)]) (fun t => t.pc = 0x204) = true := by decide
/-- V51. -/
theorem test_key_range : stepGives 0xE09E (withRegs [(0, 16)])
      (fun t => t.fault = ⟨true, .keyRange, 0x200, 0xE09E, 0⟩) = true ∧
    stepGives 0xE0A1 (withRegs [(0, 16)]) (fun t => t.fault = ⟨true, .keyRange, 0x200, 0xE0A1, 0⟩) = true ∧
    stepGives 0xE09E (withRegs [(0, 15)]) (fun t => !t.fault.valid) = true := by decide
/-- V52: the smallest key, key 0 included, or the same instruction again. -/
theorem test_wait_key : stepGives 0xF00A (withKeys [9, 3] []) (fun t => t.V 0 = 3 && t.pc = 0x202) = true ∧
    stepGives 0xF50A (withKeys [0] [(5, 9)]) (fun t => t.V 5 = 0 && t.pc = 0x202) = true ∧
    stepGives 0xF00A State.reset (fun t => t = State.reset.withFetchWord 16 0xF00A) = true := by decide
/-- V53. -/
theorem test_timers : stepGives 0xF107 { State.reset with dt := 6 } (fun t => t.V 1 = 6) = true ∧
    stepGives 0xF015 (withRegs [(0, 7)]) (fun t => t.dt = 7 && t.st = 0) = true ∧
    stepGives 0xF018 (withRegs [(0, 30)]) (fun t => t.st = 30 && t.dt = 0) = true := by decide

/-! ## Fetch, faults, the host -/

/-- V5: reset, no program. -/
theorem test_reset_runs_into_an_unknown_word : gives (step State.reset)
    (fun t => t = { State.reset with fault := ⟨true, .unknownOpcode, 0x200, 0, 0⟩ }) = true := by decide
/-- V2: an odd address. -/
theorem test_fetch_at_an_odd_address : stepGives 0x632A { State.reset with pc := 0x201 }
    (fun t => t.V 3 = 0x2A && t.pc = 0x203) = true := by decide
/-- V3, V4: the last word, one byte beyond, and beyond; the three clauses of FetchSucceedsExactlyUpTo4094. -/
theorem test_fetch_at_the_top : stepGives 0x6001 { State.reset with pc := 0xFFE } (fun t => t.V 0 = 1 && t.pc = 0x1000) = true ∧
    gives (step { State.reset with pc := 0xFFF })
      (fun t => t.pc = 0xFFF && t.fault = ⟨true, .memRange, 0xFFF, 0, 0x1000⟩) = true ∧
    gives (step { State.reset with pc := 0x1000 })
      (fun t => t.pc = 0x1000 && t.fault = ⟨true, .memRange, 0x1000, 0, 0x1000⟩) = true := by decide
/-- V54. -/
theorem test_tick : ({ State.reset with dt := 255, st := 0 } : State).tick.dt = 254 ∧
    ({ State.reset with dt := 255, st := 0 } : State).tick.st = 0 ∧
    ({ State.reset with dt := 1, st := 1 } : State).tick.dt = 0 := by decide
/-- V55. -/
theorem test_key_flags_are_no_counters :
    (((State.reset.keyPress 5).keyPress 5).keyRelease 5).keyDown 5 = false := by decide
/-- V61. -/
theorem test_host_reset : ({ withCalls 16 with fault := ⟨true, .stackOverflow, 0x200, 0x2200, 0⟩ } : State).hostReset
    Config.params = State.reset := by decide
/-- The first program P1 in memory. -/
theorem test_load : (State.reset.load Config.params [0x60, 0x05, 0x70]).1 = .ok ∧
    (State.reset.load Config.params [0x60, 0x05, 0x70]).2.mem = [(0x200, 0x60), (0x201, 0x05), (0x202, 0x70)] := by decide
/-- A setting other than the default: one saved address, unknown words skipped, the largest key picked. -/
def other : Params := { stackDepth := 1, unknownOpcodePolicy := .nop, keyPick := fun ks => ks.getLastD 0 }
/-- R174, the policy `Nop` (V5). -/
theorem test_unknown_opcode_nop : gives (stepWith other State.reset) (fun t => t = { State.reset with pc := 0x202 }) = true := by
  decide
/-- R6(a), R173: the second nested call of a core with one slot. -/
theorem test_call_at_another_depth : gives (stepWith other ((State.resetWith other).withFetchWord 16 0x2200)) (fun t =>
    t.sp = 1 && t.slot 0 = 0x202 && gives (stepWith other t)
      (fun u => u.sp = 1 && u.fault = ⟨true, .stackOverflow, 0x200, 0x2200, 0⟩)) = true := by decide
/-- R6(d), U6: another member of the keys down. -/
theorem test_wait_key_with_another_pick : gives (stepWith other ((withKeys [3, 9] []).withFetchWord 16 0xF00A))
    (fun t => t.V 0 = 9 && t.pc = 0x202) = true := by decide
/-- The codes of R170. -/
theorem test_fault_codes : [FaultCode.none, .stackUnderflow, .stackOverflow, .unknownOpcode, .memRange, .keyRange].map
    FaultCode.number = [0, 1, 2, 3, 4, 5] := by decide
/-- Writing the reset contents back removes the entry. -/
theorem test_memory_stays_canonical : Memory.write [(0x300, 7)] 0x300 0 = [] ∧
    Memory.write [(0x300, 7)] 0x200 9 = [(0x200, 9), (0x300, 7)] ∧ Memory.write [] 0x1000 9 = [] := by decide

/-! ## Witnesses: for the hypotheses of each statement, and for each of its clauses, a state and operands that meet them -/

/-- DecodeFollowsTheOpcodeTable, EncodeOfDecodedWordIsTheWord. -/
theorem test_witness_decoded_word : decode 0x81F6 = .ok (.shrReg 1 15) ∧ Mnemonic.shrReg.matchesWord 0x81F6 = true := by
  decide
/-- OperandsSitInTheirFields: one word of each format. -/
theorem test_witness_operands : decode 0x00E0 = .ok .clearScreen ∧ decode 0x1FFF = .ok (.jump 0xFFF) ∧
    decode 0x6FFF = .ok (.setImm 15 255) ∧ decode 0x8F0E = .ok (.shlReg 15 0) ∧ decode 0x8FE7 = .ok (.subnReg 15 14) ∧
    decode 0xDFED = .ok (.draw 15 14 13) ∧ decode 0xFF65 = .ok (.regLoad 15) := by decide
/-- UnknownWordsAreThoseOfTheList: each of its five clauses, at the ends of its ranges. -/
theorem test_witness_unknown_words : decode 0x0000 = .error .unknownSystemWord ∧ decode 0x0FFF = .error .unknownSystemWord ∧
    decode 0x5001 = .error .unknownCompareSelector ∧ decode 0x9FFF = .error .unknownCompareSelector ∧
    decode 0x8008 = .error .unknownAluSelector ∧ decode 0x8FFD = .error .unknownAluSelector ∧
    decode 0xEFFF = .error .unknownKeySelector ∧ decode 0xFFFF = .error .unknownMiscSelector := by decide
/-- AssemblerAcceptsExactlyTheLinesThatFit: both clauses. -/
theorem test_witness_assembler : AsmLine.wf ⟨.shlReg, [15]⟩ = true ∧ AsmLine.wf ⟨.shlReg, [16]⟩ = false := by decide
/-- StepRunsTheDecodedInstruction, at the last address. -/
theorem test_witness_step : ∃ s : State, s.fault.valid = false ∧ s.pc.toNat ≤ 4094 ∧
    decode (joinBytes (Memory.read s.mem s.pc.toNat) (Memory.read s.mem (s.pc.toNat + 1))) = .ok (.setImm 0 1) :=
  ⟨{ State.reset with pc := 0xFFE, mem := [(0xFFE, 0x60), (0xFFF, 0x01)] }, by decide⟩
/-- UnknownOpcodeFollowsThePolicy. -/
theorem test_witness_unknown_opcode : State.reset.fault.valid = false ∧ State.reset.fetch = .ok 0x0000 ∧
    decode 0x0000 = .error .unknownSystemWord ∧ Config.params.unknownOpcodePolicy = .fault ∧
    other.unknownOpcodePolicy = .nop := ⟨rfl, rfl, rfl, rfl, rfl⟩
/-- The reset state with no program, after its first step: halted. -/
def halted : State := { State.reset with fault := ⟨true, .unknownOpcode, 0x200, 0, 0⟩ }
/-- HaltedStepChangesNothing, FaultingStepChangesOnlyTheFaultRecord. -/
theorem test_witness_halted : halted.fault.valid = true ∧ State.reset.fault.valid = false ∧
    step State.reset = .next halted := ⟨rfl, rfl, rfl⟩
/-- EachInstructionRaisesOnlyItsOwnFault: with a fault, and without. -/
theorem test_witness_raise : exec .ret State.reset = .next (State.reset.takeFault 0x1FE .stackUnderflow 0x00EE 0) ∧
    exec (.jump 0) State.reset = .next (State.reset.setPc 0) := ⟨rfl, rfl⟩
/-- KeyCodeAbove15Faults, at its boundary. -/
theorem test_witness_key_range : 15 < ((withRegs [(0, 16)]).V 0).toNat := by decide
/-- A halted state with two bytes in memory and a return address on the stack. -/
def inside : State := { withCalls 1 with
  mem := [(0x200, 0xE0), (0x201, 0x9E)], v := Vector.replicate 16 16, fault := ⟨true, .keyRange, 0x200, 0xE09E, 0⟩ }
/-- EveryStepKeepsTheInvariant, EveryInterleavingKeepsTheInvariant. -/
theorem test_witness_invariant : inside.Inv Config.params ∧ step inside = .next inside :=
  ⟨{ memory := by decide, slots := by decide, depth := by decide, returnAddresses := by decide, running := by decide, cause := by decide,
     faultPc := by decide, faultInstr := by decide, faultAddr := by decide }, rfl⟩
/-- OnlyStoreInstructionsWriteMemory, OnlySetDelayAndSetSoundWriteTimers, OnlyTheirInstructionsWriteDisplayAndStack,
OnlyFiveInstructionsWriteTheAddressRegister: an instruction outside every one of the lists. -/
theorem test_witness_frames : exec (.setImm 3 7) State.reset = .next (State.reset.setV 3 7) ∧
    (∀ x, Instr.setImm 3 7 ≠ .storeBcd x) ∧ (∀ x, Instr.setImm 3 7 ≠ .regDump x) ∧
    (∀ x, Instr.setImm 3 7 ≠ .setDelay x) ∧ (∀ x, Instr.setImm 3 7 ≠ .setSound x) ∧ Instr.setImm 3 7 ≠ .clearScreen ∧
    (∀ x y n, Instr.setImm 3 7 ≠ .draw x y n) ∧ Instr.setImm 3 7 ≠ .ret ∧ (∀ n, Instr.setImm 3 7 ≠ .call n) ∧
    (∀ x n, Instr.setImm 3 7 ≠ .rand x n) ∧ (∀ n, Instr.setImm 3 7 ≠ .setI n) ∧ (∀ x, Instr.setImm 3 7 ≠ .addI x) ∧
    (∀ x, Instr.setImm 3 7 ≠ .fontChar x) ∧ (∀ x, Instr.setImm 3 7 ≠ .regLoad x) :=
  ⟨rfl, by simp⟩
/-- OnlyFlagWritersAndNamedDestinationsChangeVF. -/
theorem test_witness_vf_changes : gives (exec (.shrReg 1 0) (withRegs [(1, 1)])) (fun t => t.V 15 ≠ 0) = true ∧
    gives (exec (.setImm 15 7) State.reset) (fun t => t.V 15 ≠ 0) = true ∧
    gives (exec (.copyReg 15 1) (withRegs [(1, 1)])) (fun t => t.V 15 ≠ 0) = true ∧
    gives (exec (.getDelay 15) { State.reset with dt := 1 }) (fun t => t.V 15 ≠ 0) = true ∧
    gives (exec (.regLoad 15) (withMem 0x300 [(0x30F, 1)] [])) (fun t => t.V 15 ≠ 0) = true := by decide
/-- ProgramCounterAfterEachInstruction: each kind of arm. -/
theorem test_witness_pc : gives (exec (.jumpOffset 0xFFF) (withRegs [(0, 255)])) (fun t => !t.fault.valid) = true ∧
    gives (exec (.call 0) (withCalls 15)) (fun t => !t.fault.valid) = true ∧
    gives (exec .ret (withCalls 16)) (fun t => !t.fault.valid) = true ∧
    gives (exec (.skipKeyPressed 0) (withRegs [(0, 15)])) (fun t => !t.fault.valid) = true ∧
    gives (exec (.skipNeImm 0 0) State.reset) (fun t => !t.fault.valid) = true ∧
    gives (exec (.waitKey 0) (withKeys [15] [])) (fun t => !t.fault.valid) = true ∧
    gives (exec (.waitKey 0) State.reset) (fun t => !t.fault.valid) = true ∧
    gives (exec (.storeBcd 0) (withMem 4093 [] [])) (fun t => !t.fault.valid) = true := by decide
/-- DeadStackSlotsAreUnobservable: two stacks that differ in a dead slot only. -/
theorem test_witness_dead_slots : ((withCalls 1).stack.set 1 7).length = (withCalls 1).stack.length ∧
    (∀ j, j < (withCalls 1).sp → State.slot { withCalls 1 with stack := (withCalls 1).stack.set 1 7 } j = (withCalls 1).slot j) ∧
    (withCalls 1).stack.set 1 7 ≠ (withCalls 1).stack := by
  refine ⟨rfl, fun j hj => ?_, by decide⟩
  obtain rfl : j = 0 := Nat.lt_one_iff.1 hj
  rfl
/-- A state whose `reg-dump` writes the next instruction, at the last place it can. -/
def selfModifying : State := { withRegs [(0, 0x61), (1, 0xEE)] with
  pc := 4092, iReg := 4094, mem := [(4092, 0xF1), (4093, 0x55)] }
/-- StoredWordIsTheNextInstruction. -/
theorem test_witness_stored_word : selfModifying.mem.wf = true ∧ selfModifying.fault.valid = false ∧
    selfModifying.fetch = .ok (encode (.regDump 1)) ∧ selfModifying.pc.toNat ≤ 4092 ∧
    selfModifying.iReg = selfModifying.pc + 2 ∧ decode (joinBytes (selfModifying.V 0) (selfModifying.V 1)) = .ok (.setImm 1 0xEE) ∧
    gives (step selfModifying) (fun t => gives (step t) fun u => u.V 1 = 0xEE) = true := by
  refine ⟨by decide, rfl, rfl, by decide, rfl, rfl, by decide⟩
/-- AddGivesSumAndCarry, SubtractionsGiveDifferenceAndNoBorrow, ShiftsMoveVXByOneAndIgnoreY: the destination is not
register 15, and each flag takes both values at its boundary (255 and 256, equal and one less). -/
theorem test_witness_flags : (1 : RegIdx) ≠ 15 ∧ carryFlag 255 0 = 0 ∧ carryFlag 255 1 = 1 ∧ noBorrowFlag 5 5 = 1 ∧
    noBorrowFlag 5 6 = 0 ∧ lowBitFlag 1 = 1 ∧ lowBitFlag 0xFE = 0 ∧ highBitFlag 0x80 = 1 ∧ highBitFlag 0x7F = 0 := by decide
/-- CallSavesTheNextAddress and CallThenReturnComesBack: the last call that fits, and the first that does not. -/
theorem test_witness_call : (withCalls 15).sp < Config.stackDepth ∧ (withCalls 15).stack.length = Config.stackDepth ∧
    Config.stackDepth ≤ (withCalls 16).sp ∧
    exec (.call 0) (withCalls 16) = .next ((withCalls 16).takeFault 0x1FE .stackOverflow 0x2000 0) :=
  ⟨by decide, rfl, by decide, rfl⟩
/-- ReturnPopsTheNewestAddress: both clauses. -/
theorem test_witness_return : 0 < (withCalls 1).sp ∧ (withCalls 0).sp = 0 := by decide
/-- SelfJumpLeavesTheStateUnchanged, V10. -/
theorem test_witness_self_jump : ∃ s : State, s.fault.valid = false ∧ s.fetch = .ok (encode (.jump 0x200)) ∧
    (0x200 : Addr12).toNat = s.pc.toNat := ⟨State.reset.withFetchWord 16 0x1200, rfl, rfl, rfl⟩
/-- StoreBcdWritesThreeDigits: the last base, V27, and the first beyond. -/
theorem test_witness_store_bcd : (withMem 4093 [] [(0, 255)]).mem.wf = true ∧ (withMem 4093 [] []).iReg.toNat ≤ 4093 ∧
    4093 < (withMem 4094 [] []).iReg.toNat ∧ gives (exec (.storeBcd 0) (withMem 4093 [] [(0, 255)]))
      (fun t => t.mem = [(4093, 2), (4094, 5), (4095, 5)]) = true := by decide
/-- RegDumpStoresRegistersZeroToX, RegLoadLoadsRegistersZeroToX, RegLoadRestoresWhatRegDumpStored: the last base, and the
first beyond. -/
theorem test_witness_block : (withMem 4080 [] []).mem.wf = true ∧ (withMem 4080 [] []).iReg.toNat + (15 : RegIdx).toNat ≤ 4095 ∧
    4095 < (withMem 4081 [] []).iReg.toNat + (15 : RegIdx).toNat ∧
    gives (exec (.regLoad 15) (withMem 4080 [(4095, 7)] [])) (fun t => t.V 15 = 7 && t.iReg = 4096) = true := by decide
/-- A pixel the sprite of one row 0x80 covers and one it does not. -/
theorem test_witness_covers : SpriteCovers (withMem 0x300 [(0x300, 0x80)] []) 0 1 1 (0, 0) ∧
    ¬ SpriteCovers (withMem 0x300 [(0x300, 0x80)] []) 0 1 0 (0, 0) :=
  ⟨⟨0, 0, by decide, by decide, by decide, by decide, by decide⟩, fun ⟨_, _, h, _⟩ => absurd h (Nat.not_lt_zero _)⟩
/-- DrawInvertsTheCoveredPixelsAndReportsCollision, DrawingTwiceRestoresTheDisplay: `N` = 0 anywhere, the last byte, and
one byte beyond (V47, V48). -/
theorem test_witness_draw : gives (exec (.draw 0 1 0) (withMem 0x1000 [] [(15, 9)])) (fun t => t.V 15 = 0 && !t.fault.valid) = true ∧
    (withMem 0xFFF [] []).iReg.toNat + (1 : Nibble).toNat ≤ 4096 ∧ 0 < (2 : Nibble).toNat ∧
    4096 < (withMem 0xFFF [] []).iReg.toNat + (2 : Nibble).toNat ∧
    gives (exec (.draw 0 1 2) (withMem 0xFFF [] [(15, 9)])) (fun t => t.V 15 = 9 && t.fault.addr = 0x1000) = true := by decide
/-- KeySkipsTestTheLevelOfOneKey: the largest code, down and up. -/
theorem test_witness_key_skips : ((withKeys [15] [(0, 15)]).V 0).toNat = (15 : KeyCode).toNat ∧
    (withKeys [15] [(0, 15)]).keyDown 15 = true ∧ (withRegs [(0, 15)]).keyDown 15 = false := by decide
/-- WaitKeyGivesTheSmallestKeyDown: no key, and the largest key alone. -/
theorem test_witness_wait_key : (∀ k, State.reset.keyDown k = false) ∧ (withKeys [15] []).keyDown 15 = true ∧
    (∀ j : KeyCode, j.toNat < (15 : KeyCode).toNat → (withKeys [15] []).keyDown j = false) := by decide
/-- WaitKeyGivesAKeyDownForEveryPick: the pick that takes the largest code. -/
theorem test_witness_pick : (∀ ks : List KeyCode, ks ≠ [] → ks.getLastD 0 ∈ ks) ∧ (∃ k, (withKeys [3, 9] []).keyDown k = true) ∧
    (waitKeyWith (fun ks => ks.getLastD 0) 0 (withKeys [3, 9] [])).V 0 = 9 := by
  refine ⟨fun ks h => ?_, ⟨3, by decide⟩, by decide⟩
  rw [List.getLastD_eq_getLast?, List.getLast?_eq_some_getLast h]
  exact List.getLast_mem h
/-- WaitKeySpinsUntilAKeyPress. -/
theorem test_witness_spin : (State.reset.withFetchWord 16 0xF00A).fault.valid = false ∧
    (State.reset.withFetchWord 16 0xF00A).fetch = .ok (encode (.waitKey 0)) ∧
    (∀ k, (State.reset.withFetchWord 16 0xF00A).keyDown k = false) := ⟨rfl, rfl, by decide⟩
/-- LoadPlacesTheImageOrLeavesTheResetState: the longest image, and one byte more (V60). -/
theorem test_witness_load : ∃ short long : List Byte, short.length ≤ 3584 ∧ short.length = 3584 ∧ 3584 < long.length ∧
    long.length = 3585 ∧ State.reset.load Config.params long = (.loadTooLarge, State.reset) :=
  ⟨List.replicate 3584 7, List.replicate 3585 7, List.length_replicate.le, List.length_replicate,
   by rw [List.length_replicate]; omega, List.length_replicate, if_pos (by rw [List.length_replicate]; decide)⟩

/-- StepUnderEveryParameterSetting: a halted core, a failed fetch, a call that fits one slot and one that does not, a
`wait-key`, and an instruction that no parameter touches. -/
theorem test_witness_parameters : halted.fault.valid = true ∧
    { State.reset with pc := 0xFFF }.fetch = .error 0x1000 ∧
    (State.reset.withFetchWord 16 0x2000).fetch = .ok 0x2000 ∧ decode 0x2000 = .ok (.call 0) ∧
    (withCalls 0).sp < other.stackDepth ∧ other.stackDepth ≤ (withCalls 1).sp ∧
    (State.reset.withFetchWord 16 0xF00A).fetch = .ok 0xF00A ∧ decode 0xF00A = .ok (.waitKey 0) ∧
    (State.reset.withFetchWord 16 0x6005).fetch = .ok 0x6005 ∧ decode 0x6005 = .ok (.setImm 0 5) :=
  ⟨rfl, rfl, rfl, rfl, by decide, by decide, rfl, rfl, rfl, rfl⟩
/-- AfterLoadACallIsAccepted: the default setting is legal, and another one is. -/
theorem test_witness_legal : Config.params.Legal ∧ other.Legal := by
  refine ⟨⟨by decide, fun ks h => ?_⟩, ⟨by decide, fun ks h => ?_⟩⟩
  · cases ks with
    | nil => exact absurd rfl h
    | cons k ks => exact List.mem_cons_self
  · show ks.getLastD 0 ∈ ks
    rw [List.getLastD_eq_getLast?, List.getLast?_eq_some_getLast h]
    exact List.getLast_mem h

end Sys2Proof.Tests
end

section
/-! The step under every setting of the parameters (spec R6), and what it needs of the decoder: a word that decodes is the word
of its instruction, so a fault that records the instruction's word records the fetched one (R21, R177; log 11). -/

namespace Sys2Proof

/-! ## A word that decodes is the word of its instruction -/

section family
variable {w : Word} {f : Nibble} (hf : (fieldFam w).toNat = f.toNat)
include hf

theorem word_eq_addr_of_family : (f ++ fieldNNN w : Word) = w := by
  rw [← BitVec.eq_of_toNat_eq hf, word_eq_addr]

theorem word_eq_byte_of_family : (f ++ fieldX w ++ fieldNN w : Word) = w := by
  rw [← BitVec.eq_of_toNat_eq hf, word_eq_byte]

theorem word_eq_nibbles_of_family : (f ++ fieldX w ++ fieldY w ++ fieldN w : Word) = w := by
  rw [← BitVec.eq_of_toNat_eq hf, word_eq_nibbles]

end family

theorem encode_of_decodeSystem {w : Word} {i : Instr} (h : decodeSystem w = .ok i) : encode i = w := by
  unfold decodeSystem at h
  split_ifs at h
  all_goals next hw => cases h; exact hw.symm

theorem encode_of_decodeCompare {w : Word} {i : Instr} {f : Nibble} {op : RegIdx → RegIdx → Instr}
    (hop : ∀ x y, encode (op x y) = f ++ x ++ y ++ 0#4) (hf : (fieldFam w).toNat = f.toNat)
    (h : decodeCompare op w = .ok i) : encode i = w := by
  unfold decodeCompare at h
  split_ifs at h with hn
  cases h
  rw [hop, ← hn, word_eq_nibbles_of_family hf]

theorem encode_of_decodeAlu {w : Word} {i : Instr} (hf : (fieldFam w).toNat = 0x8) (h : decodeAlu w = .ok i) :
    encode i = w := by
  have hw {n : Nibble} (hn : (fieldN w).toNat = n.toNat) : (0x8#4 ++ fieldX w ++ fieldY w ++ n : Word) = w := by
    rw [← BitVec.eq_of_toNat_eq hn]
    exact word_eq_nibbles_of_family hf
  unfold decodeAlu at h
  split at h
  case h_10 => cases h
  all_goals next hn => cases h; exact hw hn

theorem encode_of_decodeKey {w : Word} {i : Instr} (hf : (fieldFam w).toNat = 0xE) (h : decodeKey w = .ok i) :
    encode i = w := by
  have hw : (0xE#4 ++ fieldX w ++ fieldNN w : Word) = w := word_eq_byte_of_family hf
  unfold decodeKey at h
  split_ifs at h
  all_goals next hn => cases h; rwa [hn] at hw

theorem encode_of_decodeMisc {w : Word} {i : Instr} (hf : (fieldFam w).toNat = 0xF) (h : decodeMisc w = .ok i) :
    encode i = w := by
  have hw : (0xF#4 ++ fieldX w ++ fieldNN w : Word) = w := word_eq_byte_of_family hf
  unfold decodeMisc at h
  split_ifs at h
  all_goals next hn => cases h; rwa [hn] at hw

/-- Decoding loses no bit of an accepted word: family by family the fixed bits are matched and the others are operands
(R61 to R69). -/
theorem encode_of_decode {w : Word} {i : Instr} (h : decode w = .ok i) : encode i = w := by
  unfold decode at h
  split at h
  case h_1 => exact encode_of_decodeSystem h
  case h_6 hf => exact encode_of_decodeCompare (f := 0x5#4) (fun _ _ => rfl) hf h
  case h_9 hf => exact encode_of_decodeAlu hf h
  case h_10 hf => exact encode_of_decodeCompare (f := 0x9#4) (fun _ _ => rfl) hf h
  case h_15 hf => exact encode_of_decodeKey hf h
  case h_14 hf => cases h; exact word_eq_nibbles_of_family hf
  case h_2 hf | h_3 hf | h_11 hf | h_12 hf => cases h; exact word_eq_addr_of_family hf
  case h_4 hf | h_5 hf | h_7 hf | h_8 hf | h_13 hf => cases h; exact word_eq_byte_of_family hf
  case h_16 =>
    have hlt := (fieldFam w).isLt
    simp only [imp_false] at *
    have hf : (fieldFam w).toNat = 0xF := by omega
    exact encode_of_decodeMisc hf h

namespace Machine

/-! ## `call` at any depth -/

/-- With a free slot a `call` saves `PC` and goes to its operand (R102). -/
theorem execCallWith_of_lt {P : Params} {s : State} (nnn : Addr12) (h : s.sp < P.stackDepth) :
    execCallWith P nnn s = .next { s with pc := zext16 nnn, stack := s.stack.set s.sp s.pc, sp := s.sp + 1 } := by
  obtain ⟨-, hp⟩ | ⟨hle, -⟩ := State.push_cases P.stackDepth s.pc s
  · rw [execCallWith, hp]
    rfl
  · omega

/-- With no free slot a `call` takes the fault `StackOverflow` (R102, R173). -/
theorem execCallWith_of_le {P : Params} {s : State} (nnn : Addr12) (h : P.stackDepth ≤ s.sp) :
    execCallWith P nnn s = .next (s.takeFault (s.pc - 2) .stackOverflow (encode (.call nnn)) 0) := by
  obtain ⟨hlt, -⟩ | ⟨-, hp⟩ := State.push_cases P.stackDepth s.pc s
  · omega
  · rw [execCallWith, hp]
    rfl

/-! ## A step under any parameters -/

/-- A fault taken by an instruction at its own address changes nothing but the record: `PC` goes back to it (R177). -/
theorem State.takeFault_advance (s : State) (code : FaultCode) (instr addr : Word) :
    s.advance.takeFault (s.advance.pc - 2) code instr addr = { s with fault := ⟨true, code, s.pc, instr, addr⟩ } := by
  have hpc : s.advance.pc - 2 = s.pc := by rw [State.advance_pc, BitVec.add_sub_cancel]
  rw [hpc]
  rfl

/-- A core that decodes no word steps alike under every setting: it is halted, or its fetch faults (R81, R85). -/
theorem stepWith_eq_step_of_no_word (P : Params) {s : State} (h : s.fault.valid = true ∨ ∃ a, s.fetch = .error a) :
    stepWith P s = step s := by
  unfold step
  obtain h | ⟨a, ha⟩ := h
  · rw [stepWith_halted P h, stepWith_halted _ h]
  · simp only [stepWith, ha]

/-- An instruction other than `call` and `wait-key` steps alike under every setting (R6). -/
theorem stepWith_eq_step (P : Params) {s : State} {w : Word} {i : Instr} (h : s.fault.valid = false)
    (hf : s.fetch = .ok w) (hi : decode w = .ok i) (hc : ∀ nnn, i ≠ .call nnn) (hw : ∀ x, i ≠ .waitKey x) :
    stepWith P s = step s := by
  rw [stepWith_run P h hf hi, step_run h hf hi, execWith_eq P i _ hc hw]

end Machine
end Sys2Proof

open Sys2Proof Sys2Proof.Machine

/-- Settles O59: a step that decodes a word executes its instruction under the parameters, and of those only `call` and
`wait-key` look at one. The word an overflowing `call` records is the fetched one by `encode_of_decode`. -/
theorem stepUnderEveryParameterSetting : Obligations.StepUnderEveryParameterSetting := by
  intro P s
  refine ⟨stepWith_eq_step_of_no_word P, fun w i h hf hi => ?_⟩
  have hrun : stepWith P s = execWith P i s.advance := stepWith_run P h hf hi
  cases i
  case call nnn =>
    refine ⟨fun hlt => hrun.trans (execCallWith_of_lt nnn hlt), fun hle => ?_⟩
    calc stepWith P s
      _ = execCallWith P nnn s.advance := hrun
      _ = .next (s.advance.takeFault (s.advance.pc - 2) .stackOverflow (encode (.call nnn)) 0) :=
        execCallWith_of_le nnn hle
      _ = .next { s with fault := ⟨true, .stackOverflow, s.pc, w, 0⟩ } := by
        rw [State.takeFault_advance, encode_of_decode hi]
  case waitKey x => exact hrun
  all_goals exact stepWith_eq_step P h hf hi (fun _ => nofun) (fun _ => nofun)

end

section
/-! What a step reads of the sound timer and of the call stack, and where it leaves `PC` (spec 10_state.md R14, R15, R17). First
one equation for each instruction that can fault or wait; then all instructions at once: only `set-sound`, `call` and `return`
touch `ST`, `SP` or the stack, and every other one neither reads nor writes them. -/

namespace Sys2Proof.Machine

/-! ## One equation per instruction that can fault or wait -/

/-- `draw` faults when its rows do not fit the memory, else composes them (R151, R171). -/
theorem execDraw_eq (x y : RegIdx) (n : Nibble) (s : State) :
    execDraw x y n s =
      if 0 < n.toNat ∧ 4096 < s.effAddr 0 + n.toNat then
        raise (.draw x y n) .memRange (BitVec.ofNat 16 (max (s.effAddr 0) 4096)) s
      else
        let drawn := togglePixels s.disp false (spritePixels ((s.V x).toNat % 64) ((s.V y).toNat % 32)
          ((List.range n.toNat).map fun k => Memory.read s.mem (s.effAddr 0 + k)))
        .next ({ s with disp := drawn.1 }.setFlag (flagByte drawn.2)) := by
  rw [execDraw, State.readBytes_eq]
  split_ifs <;> rfl

/-- `store-bcd` faults when its three bytes do not fit the memory, else writes them (R143, R171). -/
theorem execStoreBcd_eq (x : RegIdx) (s : State) :
    execStoreBcd x s =
      if 4096 < s.effAddr 0 + 3 then raise (.storeBcd x) .memRange (BitVec.ofNat 16 (max (s.effAddr 0) 4096)) s
      else .next { s with mem := Memory.writeList s.mem (s.effAddr 0) (bcdDigits (s.V x)) } := by
  have hlen : (bcdDigits (s.V x)).length = 3 := rfl
  rw [execStoreBcd, State.writeBytes_eq, hlen]
  simp only [Nat.zero_lt_succ, true_and]
  split_ifs <;> rfl

/-- `reg-dump` faults when its block does not fit the memory, else writes it and advances `I` (R144, R171). -/
theorem execRegDump_eq (x : RegIdx) (s : State) :
    execRegDump x s =
      if 4096 < s.effAddr 0 + (x.toNat + 1) then
        raise (.regDump x) .memRange (BitVec.ofNat 16 (max (s.effAddr 0) 4096)) s
      else .next ({ s with mem := Memory.writeList s.mem (s.effAddr 0) (s.regsUpTo x) }.setI (advancedI s x)) := by
  have hlen : (s.regsUpTo x).length = x.toNat + 1 := by rw [State.regsUpTo, List.length_map, List.length_range]
  rw [execRegDump, State.writeBytes_eq, hlen]
  simp only [Nat.zero_lt_succ, true_and]
  split_ifs <;> rfl

/-- `reg-load` faults when its block does not fit the memory, else reads it and advances `I` (R145, R171). -/
theorem execRegLoad_eq (x : RegIdx) (s : State) :
    execRegLoad x s =
      if 4096 < s.effAddr 0 + (x.toNat + 1) then
        raise (.regLoad x) .memRange (BitVec.ofNat 16 (max (s.effAddr 0) 4096)) s
      else
        .next ((s.loadRegs ((List.range (x.toNat + 1)).map fun k => Memory.read s.mem (s.effAddr 0 + k))).setI
          (advancedI s x)) := by
  rw [execRegLoad, State.readBytes_eq]
  simp only [Nat.zero_lt_succ, true_and]
  split_ifs <;> rfl

/-- `return` with a saved address goes to the newest one (R100). -/
theorem execRet_of_pos {s : State} (h : 0 < s.sp) :
    execRet s = .next { s with sp := s.sp - 1, pc := s.slot (s.sp - 1) } := by
  obtain ⟨-, hp⟩ | ⟨h0, -⟩ := State.pop_cases s
  · rw [execRet, hp]
    rfl
  · omega

/-- `return` with no saved address takes the fault `StackUnderflow` (R100, R172). -/
theorem execRet_of_zero {s : State} (h : s.sp = 0) : execRet s = raise .ret .stackUnderflow 0 s := by
  obtain ⟨hpos, -⟩ | ⟨-, hp⟩ := State.pop_cases s
  · omega
  · rw [execRet, hp]

/-- `wait-key` with no key down goes back to itself (R163). -/
theorem waitKeyWith_of_nil (pick : List KeyCode → KeyCode) (x : RegIdx) {s : State} (h : s.keysDown = []) :
    waitKeyWith pick x s = s.setPc s.pc0 := by
  rw [waitKeyWith, h]

/-- `wait-key` with a key down writes the one picked (R163). -/
theorem waitKeyWith_of_cons (pick : List KeyCode → KeyCode) (x : RegIdx) {s : State} {k : KeyCode} {ks : List KeyCode}
    (h : s.keysDown = k :: ks) : waitKeyWith pick x s = s.setV x ((pick (k :: ks)).setWidth 8) := by
  rw [waitKeyWith, h]

/-- Two stacks with the same live slots have the same live slots after the same push, into a slot both have or neither has
(R15, R102). -/
theorem getD_set_congr {l l' : List Word} {k : Nat} (hlen : l'.length = l.length)
    (h : ∀ j, j < k → l'.getD j 0 = l.getD j 0) (w : Word) {j : Nat} (hj : j < k + 1) :
    (l'.set k w).getD j 0 = (l.set k w).getD j 0 := by
  obtain hlt | rfl := Nat.lt_succ_iff_lt_or_eq.1 hj
  · have hne : k ≠ j := Nat.ne_of_gt hlt
    simpa [List.getD_eq_getElem?_getD, List.getElem?_set_ne hne] using h j hlt
  · simp [List.getD_eq_getElem?_getD, List.getElem?_set, hlen]

/-! ## The sound timer and the call stack as an instruction that does not use them sees them -/

/-- The state with other values of `ST`, `SP` and the stack. -/
def State.withSoundAndStack (s : State) (b : Byte) (n : Nat) (slots : List Word) : State :=
  { s with st := b, sp := n, stack := slots }

/-- From `s` the meaning `f` answers a next state, and it neither reads nor writes `ST`, `SP` and the stack: from other values
of the three it answers the same state with those other values. -/
def IgnoresSoundAndStack (f : State → Host.Outcome State Fault Refusal) (s : State) : Prop :=
  ∃ t, f s = .next t ∧ ∀ b n slots, f (s.withSoundAndStack b n slots) = .next (t.withSoundAndStack b n slots)

section ignores
variable {f g h : State → Host.Outcome State Fault Refusal} {s : State}

/-- A meaning that is one of two others by a condition on the rest of the state. -/
theorem IgnoresSoundAndStack.of_ite {c : State → Prop} [DecidablePred c] (hf : ∀ s, f s = if c s then g s else h s)
    (hc : ∀ b n slots, c (s.withSoundAndStack b n slots) ↔ c s) (hg : IgnoresSoundAndStack g s)
    (hh : IgnoresSoundAndStack h s) : IgnoresSoundAndStack f s := by
  by_cases hs : c s
  · obtain ⟨t, ht, hu⟩ := hg
    exact ⟨t, by rw [hf, if_pos hs, ht], fun b n slots => by rw [hf, if_pos ((hc ..).2 hs), hu]⟩
  · obtain ⟨t, ht, hu⟩ := hh
    exact ⟨t, by rw [hf, if_neg hs, ht], fun b n slots => by rw [hf, if_neg (mt (hc ..).1 hs), hu]⟩

/-- A skip on a condition that the sound timer and the stack do not decide. -/
theorem IgnoresSoundAndStack.of_skipIf {c : State → Bool} (hf : ∀ s, f s = .next (s.skipIf (c s)))
    (hc : ∀ b n slots, c (s.withSoundAndStack b n slots) = c s) : IgnoresSoundAndStack f s := by
  refine ⟨s.skipIf (c s), hf s, fun b n slots => ?_⟩
  rw [hf, hc]
  cases c s <;> rfl

/-- What such a meaning leaves alone: with their own values in place of others, its result keeps all three. -/
theorem IgnoresSoundAndStack.frame (hf : IgnoresSoundAndStack f s) :
    ∃ t, f s = .next t ∧ (t.st = s.st ∧ t.sp = s.sp ∧ t.stack = s.stack) ∧
      ∀ b n slots, f (s.withSoundAndStack b n slots) = .next (t.withSoundAndStack b n slots) := by
  obtain ⟨t, ht, hu⟩ := hf
  have own : t = t.withSoundAndStack s.st s.sp s.stack :=
    Host.Outcome.next.inj (ht.symm.trans (hu s.st s.sp s.stack))
  exact ⟨t, ht, ⟨(congrArg State.st own :), (congrArg State.sp own :), (congrArg State.stack own :)⟩, hu⟩

end ignores

/-- `wait-key` does not look at the sound timer and the stack, whether a key is down or not (R163). -/
theorem waitKeyWith_withSoundAndStack (pick : List KeyCode → KeyCode) (x : RegIdx) (s : State) (b : Byte) (n : Nat)
    (slots : List Word) : waitKeyWith pick x (s.withSoundAndStack b n slots) =
      (waitKeyWith pick x s).withSoundAndStack b n slots := by
  cases hk : s.keysDown with
  | nil =>
    rw [waitKeyWith_of_nil pick x hk]
    exact waitKeyWith_of_nil (s := s.withSoundAndStack b n slots) pick x hk
  | cons k ks =>
    rw [waitKeyWith_of_cons pick x hk]
    exact waitKeyWith_of_cons (s := s.withSoundAndStack b n slots) pick x hk

/-- Only `set-sound` writes `ST`, which nothing reads, and only `return` and `call` read or write `SP` and the stack: every
other instruction ignores all three (R15, R17, R91). -/
theorem exec_ignores_or (i : Instr) (s : State) :
    IgnoresSoundAndStack (exec i) s ∨ (∃ x, i = .setSound x) ∨ i = .ret ∨ ∃ nnn, i = .call nnn := by
  cases i
  case setSound x => exact .inr (.inl ⟨x, rfl⟩)
  case ret => exact .inr (.inr (.inl rfl))
  case call nnn => exact .inr (.inr (.inr ⟨nnn, rfl⟩))
  all_goals left
  case skipEqImm | skipNeImm | skipEqReg | skipNeReg => exact .of_skipIf (fun _ => rfl) (fun _ _ _ => rfl)
  case skipKeyPressed | skipKeyReleased =>
    exact .of_ite (fun _ => rfl) (fun _ _ _ => Iff.rfl) ⟨_, rfl, fun _ _ _ => rfl⟩
      (.of_skipIf (fun _ => rfl) (fun _ _ _ => rfl))
  case waitKey x => exact ⟨_, rfl, fun _ _ _ => congrArg _ (waitKeyWith_withSoundAndStack ..)⟩
  case draw x y n =>
    exact .of_ite (execDraw_eq x y n) (fun _ _ _ => Iff.rfl) ⟨_, rfl, fun _ _ _ => rfl⟩ ⟨_, rfl, fun _ _ _ => rfl⟩
  case storeBcd x =>
    exact .of_ite (execStoreBcd_eq x) (fun _ _ _ => Iff.rfl) ⟨_, rfl, fun _ _ _ => rfl⟩ ⟨_, rfl, fun _ _ _ => rfl⟩
  case regDump x =>
    exact .of_ite (execRegDump_eq x) (fun _ _ _ => Iff.rfl) ⟨_, rfl, fun _ _ _ => rfl⟩ ⟨_, rfl, fun _ _ _ => rfl⟩
  case regLoad x =>
    exact .of_ite (execRegLoad_eq x) (fun _ _ _ => Iff.rfl) ⟨_, rfl, fun _ _ _ => rfl⟩ ⟨_, rfl, fun _ _ _ => rfl⟩
  all_goals exact ⟨_, rfl, fun _ _ _ => rfl⟩

/-- A step ignores the sound timer and the stack, or it executes one of the three instructions that use them, whatever their
values: being halted, the fetch and the decoding do not look at them (R80 to R85). -/
theorem step_ignores_or (s : State) :
    IgnoresSoundAndStack step s ∨
      ∃ i, ((∃ x, i = .setSound x) ∨ i = .ret ∨ ∃ nnn, i = .call nnn) ∧
        ∀ b n slots, step (s.withSoundAndStack b n slots) = exec i (s.advance.withSoundAndStack b n slots) := by
  obtain ⟨hv, hs⟩ | ⟨hv, hpc, hs⟩ | ⟨hv, hpc, i, hi, hs⟩ | ⟨hv, hpc, e, he, hs⟩ := step_cases s
  · exact .inl ⟨_, hs, fun _ _ _ => step_halted hv⟩
  · exact .inl ⟨_, hs, fun _ _ _ => step_fetch_fault hv hpc⟩
  · have hrun : ∀ b n slots, step (s.withSoundAndStack b n slots) = exec i (s.advance.withSoundAndStack b n slots) :=
      fun _ _ _ => step_decoded hv hpc hi
    obtain ⟨t, ht, hu⟩ | huses := exec_ignores_or i s.advance
    · exact .inl ⟨t, hs.trans ht, fun b n slots => (hrun b n slots).trans (hu b n slots)⟩
    · exact .inr ⟨i, huses, hrun⟩
  · exact .inl ⟨_, hs, fun _ _ _ => step_unknown hv hpc he⟩

/-! ## The program counter -/

theorem toNat_zext16 {n : Nat} (hn : n ≤ 16) (a : BitVec n) : (zext16 a).toNat = a.toNat := BitVec.toNat_setWidth_of_le hn

/-- A 12-bit address and a byte sum to less than 65536, so the sum of `jump-offset` does not wrap (R107, D8). -/
theorem toNat_jumpOffset (nnn : Addr12) (b : Byte) : (zext16 nnn + zext16 b).toNat = nnn.toNat + b.toNat := by
  have hn := nnn.isLt
  have hb := b.isLt
  rw [BitVec.toNat_add, toNat_zext16 (by decide), toNat_zext16 (by decide), Nat.mod_eq_of_lt (by omega)]

/-- A meaning that faults on a condition has not taken the fault when the core still runs (R177). -/
theorem next_of_running {c : Prop} [Decidable c] {i : Instr} {code : FaultCode} {addr : Word} {s t u : State}
    (h : (if c then raise i code addr s else .next u) = .next t) (ht : t.fault.valid = false) : t = u := by
  split_ifs at h
  · cases h
    cases ht
  · cases h
    rfl

theorem State.skipIf_pc_or (s : State) (c : Bool) : (s.skipIf c).pc = s.pc ∨ (s.skipIf c).pc = s.pc + 2 := by
  cases c
  · exact .inl rfl
  · exact .inr rfl

/-- `wait-key` stays on itself exactly when no key is down (R163). -/
theorem waitKeyWith_pc (pick : List KeyCode → KeyCode) (x : RegIdx) (s : State) :
    (waitKeyWith pick x s).pc = if ∃ k, s.keyDown k = true then s.pc else s.pc - 2 := by
  simp only [← State.mem_keysDown]
  cases hk : s.keysDown with
  | nil => rw [waitKeyWith_of_nil pick x hk, if_neg (by simp)]; rfl
  | cons k ks => rw [waitKeyWith_of_cons pick x hk, if_pos ⟨k, by simp⟩]; rfl

end Sys2Proof.Machine

open Sys2Proof Sys2Proof.Machine

/-- Settles O25: a step ignores `ST`, or executes `set-sound`, which overwrites it, or `return` or `call`, which carry it
along whether they fault or not. -/
theorem noStepReadsTheSoundTimer : Obligations.NoStepReadsTheSoundTimer := by
  intro s b
  obtain hf | ⟨i, huses, hrun⟩ := step_ignores_or s
  · obtain ⟨t, ht, ⟨-, hsp, hstack⟩, hu⟩ := hf.frame
    refine ⟨t, _, ht, hu b s.sp s.stack, ?_⟩
    rw [← hsp, ← hstack]
    rfl
  · have hs : step s = exec i s.advance := hrun s.st s.sp s.stack
    have hsb : step { s with st := b } = exec i { s.advance with st := b } := hrun b s.sp s.stack
    rw [hs, hsb]
    obtain ⟨x, rfl⟩ | rfl | ⟨nnn, rfl⟩ := huses
    · exact ⟨_, _, rfl, rfl, rfl⟩
    · obtain h0 | hpos := Nat.eq_zero_or_pos s.sp
      · exact ⟨_, _, execRet_of_zero h0, execRet_of_zero h0, rfl⟩
      · exact ⟨_, _, execRet_of_pos hpos, execRet_of_pos hpos, rfl⟩
    · obtain hlt | hle := Nat.lt_or_ge s.sp Config.params.stackDepth
      · exact ⟨_, _, execCallWith_of_lt nnn hlt, execCallWith_of_lt nnn hlt, rfl⟩
      · exact ⟨_, _, execCallWith_of_le nnn hle, execCallWith_of_le nnn hle, rfl⟩

/-- Settles O26: a step ignores the stack, or executes `set-sound`, which keeps it, or `return`, which reads a live slot, or
`call`, which makes one more slot live and writes it alike on both sides. -/
theorem deadStackSlotsAreUnobservable : Obligations.DeadStackSlotsAreUnobservable := by
  intro s slots hlen hlive
  obtain hf | ⟨i, huses, hrun⟩ := step_ignores_or s
  · obtain ⟨t, ht, ⟨hst, hsp, hstack⟩, hu⟩ := hf.frame
    refine ⟨t, _, ht, hu s.st s.sp slots, ?_, fun j hj => ?_⟩
    · rw [← hst, ← hsp]
      rfl
    · rw [State.slot, State.slot, hstack]
      exact hlive j (hsp ▸ hj)
  · have hs : step s = exec i s.advance := hrun s.st s.sp s.stack
    have hss : step { s with stack := slots } = exec i { s.advance with stack := slots } := hrun s.st s.sp slots
    rw [hs, hss]
    obtain ⟨x, rfl⟩ | rfl | ⟨nnn, rfl⟩ := huses
    · exact ⟨_, _, rfl, rfl, rfl, hlive⟩
    · obtain h0 | hpos := Nat.eq_zero_or_pos s.sp
      · exact ⟨_, _, execRet_of_zero h0, execRet_of_zero h0, rfl, hlive⟩
      · have hpc : State.slot { s with stack := slots } (s.sp - 1) = s.slot (s.sp - 1) := hlive _ (by omega)
        refine ⟨_, _, execRet_of_pos hpos, execRet_of_pos hpos, ?_, fun j hj => hlive j (Nat.lt_of_lt_pred hj)⟩
        exact congrArg (fun w => { s with stack := slots, sp := s.sp - 1, pc := w }) hpc
    · obtain hlt | hle := Nat.lt_or_ge s.sp Config.params.stackDepth
      · exact ⟨_, _, execCallWith_of_lt nnn hlt, execCallWith_of_lt nnn hlt, rfl, fun j hj =>
          getD_set_congr hlen hlive _ hj⟩
      · exact ⟨_, _, execCallWith_of_le nnn hle, execCallWith_of_le nnn hle, rfl, hlive⟩

/-- Settles O24: instruction by instruction; one that can fault has not, by `next_of_running`. -/
theorem programCounterAfterEachInstruction : Obligations.ProgramCounterAfterEachInstruction := by
  intro i s t _ h ht
  cases i
  case jump nnn => cases h; exact toNat_zext16 (by decide) nnn
  case jumpOffset nnn => cases h; exact toNat_jumpOffset nnn (s.V 0)
  case call nnn =>
    obtain hlt | hle := Nat.lt_or_ge s.sp Config.params.stackDepth
    · cases (execCallWith_of_lt nnn hlt).symm.trans h
      exact toNat_zext16 (by decide) nnn
    · cases (execCallWith_of_le nnn hle).symm.trans h
      cases ht
  case ret =>
    obtain h0 | hpos := Nat.eq_zero_or_pos s.sp
    · cases (execRet_of_zero h0).symm.trans h
      cases ht
    · cases (execRet_of_pos hpos).symm.trans h
      rfl
  case skipEqImm | skipNeImm | skipEqReg | skipNeReg => cases h; simp
  case skipKeyPressed | skipKeyReleased =>
    cases next_of_running h ht
    exact State.skipIf_pc_or ..
  case waitKey x => cases h; exact waitKeyWith_pc ..
  case draw x y n => cases next_of_running ((execDraw_eq x y n s).symm.trans h) ht; rfl
  case storeBcd x => cases next_of_running ((execStoreBcd_eq x s).symm.trans h) ht; rfl
  case regDump x => cases next_of_running ((execRegDump_eq x s).symm.trans h) ht; rfl
  case regLoad x => cases next_of_running ((execRegLoad_eq x s).symm.trans h) ht; rfl
  all_goals cases h; rfl

end

section
/-! Who writes memory, and what the next fetch sees of it (spec 20_memory.md R44, R47, R52). -/

namespace Sys2Proof.Machine

/-! ## Memory is kept -/

/-- A meaning that faults on a condition keeps memory when it keeps it without the fault, which writes none (R177). -/
theorem mem_of_next {c : Prop} [Decidable c] {i : Instr} {code : FaultCode} {addr : Word} {s t u : State}
    (h : (if c then raise i code addr s else .next u) = .next t) (hu : u.mem = s.mem) : t.mem = s.mem := by
  split_ifs at h
  · cases h
    exact State.takeFault_mem ..
  · cases h
    exact hu

/-- `wait-key` writes a register or `PC`, never memory (R163). -/
@[simp] theorem waitKeyWith_mem (pick : List KeyCode → KeyCode) (x : RegIdx) (s : State) :
    (waitKeyWith pick x s).mem = s.mem := by
  cases hk : s.keysDown with
  | nil => rw [waitKeyWith_of_nil pick x hk, State.setPc_mem]
  | cons k ks => rw [waitKeyWith_of_cons pick x hk, State.setV_mem]

/-! ## A stored word is fetched -/

/-- Two bytes written at `PC` are fetched as one word, the first one high (R44, R52). -/
theorem State.fetch_of_written {s : State} {m : Memory} {hi lo : Byte} (hm : m.wf = true) (hpc : s.pc.toNat ≤ 4094)
    (h : s.mem = Memory.writeList m s.pc.toNat [hi, lo]) : s.fetch = .ok (joinBytes hi lo) := by
  have hfit : s.pc.toNat + [hi, lo].length ≤ Config.memSize := Nat.add_le_add_right hpc 2
  have hhi : Memory.read s.mem s.pc.toNat = hi := h ▸ Memory.read_writeList_inside (k := 0) _ hm hfit (by simp)
  have hlo : Memory.read s.mem (s.pc.toNat + 1) = lo := h ▸ Memory.read_writeList_inside (k := 1) _ hm hfit (by simp)
  rw [State.fetch_eq, if_neg (by omega), hhi, hlo]

/-- `reg-dump` of a block that fits writes it and advances `I` (R144). -/
theorem execRegDump_of_fits {x : RegIdx} {s : State} (h : s.effAddr 0 + (x.toNat + 1) ≤ 4096) :
    execRegDump x s =
      .next ({ s with mem := Memory.writeList s.mem (s.effAddr 0) (s.regsUpTo x) }.setI (advancedI s x)) := by
  rw [execRegDump_eq, if_neg (Nat.not_lt.2 h)]

end Sys2Proof.Machine

open Sys2Proof Sys2Proof.Machine

/-- Settles O19: instruction by instruction; one that can fault keeps memory with and without the fault. -/
theorem onlyStoreInstructionsWriteMemory : Obligations.OnlyStoreInstructionsWriteMemory := by
  intro i s t h hbcd hdump
  cases i
  case storeBcd x => exact absurd rfl (hbcd x)
  case regDump x => exact absurd rfl (hdump x)
  case call nnn =>
    obtain hlt | hle := Nat.lt_or_ge s.sp Config.params.stackDepth
    · cases (execCallWith_of_lt nnn hlt).symm.trans h
      rfl
    · cases (execCallWith_of_le nnn hle).symm.trans h
      rfl
  case ret =>
    obtain h0 | hpos := Nat.eq_zero_or_pos s.sp
    · cases (execRet_of_zero h0).symm.trans h
      rfl
    · cases (execRet_of_pos hpos).symm.trans h
      rfl
  case skipEqImm | skipNeImm | skipEqReg | skipNeReg => cases h; exact State.skipIf_mem ..
  case skipKeyPressed | skipKeyReleased => exact mem_of_next h (State.skipIf_mem ..)
  case waitKey x => cases h; exact waitKeyWith_mem ..
  case draw x y n => exact mem_of_next ((execDraw_eq x y n s).symm.trans h) rfl
  case regLoad x => exact mem_of_next ((execRegLoad_eq x s).symm.trans h) rfl
  all_goals cases h; rfl

/-- Settles O27: the `reg-dump` leaves `V[0]` and `V[1]` in memory at the new `PC`, where `fetch_of_written` reads them. -/
theorem storedWordIsTheNextInstruction : Obligations.StoredWordIsTheNextInstruction := by
  intro s t i hm hv hf hpc hI hi hs
  have hnpc : (s.pc + 2).toNat = s.pc.toNat + 2 := by bv_omega
  have hbase : s.advance.effAddr 0 = (s.pc + 2).toNat := congrArg BitVec.toNat hI
  have hfits : s.advance.effAddr 0 + ((1 : RegIdx).toNat + 1) ≤ 4096 := by
    rw [hbase, hnpc]
    exact Nat.add_le_add_right hpc 4
  have hdump : step s = execRegDump 1 s.advance := step_run hv hf rfl
  have ht := Host.Outcome.next.inj ((hs.symm.trans hdump).trans (execRegDump_of_fits hfits))
  have htpc : t.pc = s.pc + 2 := congrArg State.pc ht
  have htv : t.fault.valid = false := (congrArg (·.fault.valid) ht).trans hv
  have htmem : t.mem = Memory.writeList s.mem t.pc.toNat [s.V 0, s.V 1] := by
    rw [htpc, ← hbase, ht]
    rfl
  have htf : t.fetch = .ok (joinBytes (s.V 0) (s.V 1)) := State.fetch_of_written hm (by rw [htpc]; omega) htmem
  calc step t
    _ = exec i t.advance := step_run htv htf hi
    _ = exec i (t.setPc (s.pc + 4)) := by
      rw [State.advance, htpc, BitVec.add_assoc]
      rfl

end

section
/-! The encoding (spec 30_encoding.md): what the decoder reads of the word of an instruction, the rows of the opcode table, the
words the decoder refuses, and the assembler (R61 to R75). -/

namespace Sys2Proof

/-! ## The word of an instruction is read back -/

/-- No operand bit is dropped: the family, then the selector, leads to the instruction's own arm, which reads its operands
where `encode` has put them (R64 to R69). -/
theorem decode_encode (i : Instr) : decode (encode i) = .ok i := by
  cases i
  case clearScreen | ret => rfl
  case jump | call | setI | jumpOffset | skipEqImm | skipNeImm | setImm | addImm | rand | draw => simp [encode, decode]
  case skipEqReg | skipNeReg => simp [encode, decode, decodeCompare]
  case skipKeyPressed | skipKeyReleased => simp [encode, decode, decodeKey]
  case getDelay | waitKey | setDelay | setSound | addI | fontChar | storeBcd | regDump | regLoad =>
    simp [encode, decode, decodeMisc]
  all_goals simp [encode, decode, decodeAlu]

/-! ## The rows of the opcode table -/

namespace Laws.EncodeRow

/-- The word of every instruction lies in the row of its operation. -/
theorem all : ∀ i, Statement i
  | .clearScreen => clearScreen | .ret => ret
  | .jump _ => jump _ | .call _ => call _ | .setI _ => setI _ | .jumpOffset _ => jumpOffset _
  | .skipEqImm .. => skipEqImm .. | .skipNeImm .. => skipNeImm .. | .setImm .. => setImm .. | .addImm .. => addImm ..
  | .rand .. => rand .. | .draw .. => draw ..
  | .skipEqReg .. => skipEqReg .. | .skipNeReg .. => skipNeReg ..
  | .copyReg .. => copyReg .. | .orReg .. => orReg .. | .andReg .. => andReg .. | .xorReg .. => xorReg ..
  | .addReg .. => addReg .. | .subReg .. => subReg .. | .subnReg .. => subnReg ..
  | .shrReg .. => shrReg .. | .shlReg .. => shlReg ..
  | .skipKeyPressed _ => skipKeyPressed _ | .skipKeyReleased _ => skipKeyReleased _
  | .getDelay _ => getDelay _ | .waitKey _ => waitKey _ | .setDelay _ => setDelay _ | .setSound _ => setSound _
  | .addI _ => addI _ | .fontChar _ => fontChar _ | .storeBcd _ => storeBcd _
  | .regDump _ => regDump _ | .regLoad _ => regLoad _

end Laws.EncodeRow

theorem encode_matchesWord (i : Instr) : i.mnemonic.matchesWord (encode i) = true := beq_iff_eq.2 (Laws.EncodeRow.all i)

section row
variable {m : Mnemonic} {w : Word} (h : m.matchesWord w = true)
include h

theorem mask_of_matchesWord : w &&& m.format.mask = m.bits := beq_iff_eq.1 h

/-- In a row, a field whose bits the format fixes has the value the row gives it. -/
theorem extract_of_matchesWord {start len : Nat} (hm : m.format.mask.extractLsb' start len = .allOnes len) :
    w.extractLsb' start len = m.bits.extractLsb' start len := by
  rw [← mask_of_matchesWord h, BitVec.extractLsb'_and, hm, BitVec.and_allOnes]

/-- Every format fixes the family (R62). -/
theorem fieldFam_of_matchesWord : fieldFam w = fieldFam m.bits :=
  extract_of_matchesWord h (by cases m.format <;> rfl)

/-- Format XY fixes the low nibble (R62). -/
theorem fieldN_of_matchesWord (hm : m.format = .XY) : fieldN w = fieldN m.bits :=
  extract_of_matchesWord h (by rw [hm]; rfl)

/-- Format XS fixes the low byte (R62). -/
theorem fieldNN_of_matchesWord (hm : m.format = .XS) : fieldNN w = fieldNN m.bits :=
  extract_of_matchesWord h (by rw [hm]; rfl)

/-- Format Z fixes the whole word (R62). -/
theorem word_of_matchesWord (hm : m.format = .Z) : w = m.bits := by
  rw [← mask_of_matchesWord h, hm]
  exact BitVec.and_allOnes.symm

/-- A word in the row of an operation decodes to it: the row's fixed bits are the ones the dispatch looks at (R64 to R69). -/
theorem decode_of_matchesWord : ∃ i, decode w = .ok i ∧ i.mnemonic = m := by
  unfold decode
  rw [fieldFam_of_matchesWord h]
  cases m
  case clearScreen | ret =>
    rw [word_of_matchesWord h rfl]
    exact ⟨_, rfl, rfl⟩
  case skipEqReg | skipNeReg =>
    simp only [decodeCompare, fieldN_of_matchesWord h rfl]
    exact ⟨_, rfl, rfl⟩
  case copyReg | orReg | andReg | xorReg | addReg | subReg | shrReg | subnReg | shlReg =>
    simp only [decodeAlu, fieldN_of_matchesWord h rfl]
    exact ⟨_, rfl, rfl⟩
  case skipKeyPressed | skipKeyReleased =>
    simp only [decodeKey, fieldNN_of_matchesWord h rfl]
    exact ⟨_, rfl, rfl⟩
  case getDelay | waitKey | setDelay | setSound | addI | fontChar | storeBcd | regDump | regLoad =>
    simp only [decodeMisc, fieldNN_of_matchesWord h rfl]
    exact ⟨_, rfl, rfl⟩
  all_goals exact ⟨_, rfl, rfl⟩

end row

/-! ## The words the decoder refuses -/

/-- A match that answers an instruction and else goes on refuses when it does not match and the rest refuses. -/
theorem exists_error_ite {c : Prop} [Decidable c] {i : Instr} {r : Except DecodeError Instr} :
    (∃ e, (if c then .ok i else r) = .error e) ↔ ¬ c ∧ ∃ e, r = .error e := by
  by_cases hc : c
  · simp [hc]
  · simp [hc]

section refuses
variable (w : Word)

theorem decodeSystem_error_iff : (∃ e, decodeSystem w = .error e) ↔ w.toNat ≠ 0x00E0 ∧ w.toNat ≠ 0x00EE := by
  simp [decodeSystem, exists_error_ite, ← BitVec.toNat_inj]

theorem decodeCompare_error_iff (op : RegIdx → RegIdx → Instr) :
    (∃ e, decodeCompare op w = .error e) ↔ w.toNat % 16 ≠ 0 := by
  simp [decodeCompare, exists_error_ite, ← BitVec.toNat_inj, fieldN_toNat]

theorem decodeAlu_error_iff :
    (∃ e, decodeAlu w = .error e) ↔ w.toNat % 16 ∈ [0x8, 0x9, 0xA, 0xB, 0xC, 0xD, 0xF] := by
  unfold decodeAlu
  rw [fieldN_toNat]
  split
  case h_10 =>
    have hmem : w.toNat % 16 ∈ [0x8, 0x9, 0xA, 0xB, 0xC, 0xD, 0xF] := by
      simp only [imp_false, List.mem_cons, List.not_mem_nil] at *
      omega
    exact iff_of_true ⟨_, rfl⟩ hmem
  all_goals next hn => simp [hn]

theorem decodeKey_error_iff : (∃ e, decodeKey w = .error e) ↔ w.toNat % 256 ∉ [0x9E, 0xA1] := by
  simp [decodeKey, exists_error_ite, ← BitVec.toNat_inj, fieldNN_toNat]

theorem decodeMisc_error_iff : (∃ e, decodeMisc w = .error e) ↔
    w.toNat % 256 ∉ [0x07, 0x0A, 0x15, 0x18, 0x1E, 0x29, 0x33, 0x55, 0x65] := by
  simp [decodeMisc, exists_error_ite, ← BitVec.toNat_inj, fieldNN_toNat]

end refuses

/-! ## The assembler -/

theorem operandsFit_iff (ks : List OperandKind) (ns : List Nat) :
    operandsFit ks ns = true ↔ List.Forall₂ (fun k n => n < k.count) ks ns := by
  induction ks generalizing ns with
  | nil => cases ns <;> simp [operandsFit]
  | cons k ks ih => cases ns <;> simp [operandsFit, ih]

theorem mnemonic_buildInstr (m : Mnemonic) (a b c : Nat) : (buildInstr m a b c).mnemonic = m := by
  cases m <;> rfl

/-- Each operand is taken at the width of its field, and those the operation has no field for are left out. -/
theorem operands_buildInstr (m : Mnemonic) (a b c : Nat) :
    (buildInstr m a b c).operands = List.zipWith (fun k n => n % k.count) m.operandKinds [a, b, c] := by
  cases m <;> rfl

theorem length_operandKinds_le (m : Mnemonic) : m.operandKinds.length ≤ 3 := by
  cases m <;> decide

/-- Numbers that fit are not changed by taking each at the width of its field, nor lost: there are at most three. -/
theorem zipWith_mod_count_of_fits {ks : List OperandKind} {ns : List Nat}
    (h : List.Forall₂ (fun k n => n < k.count) ks ns) (hlen : ks.length ≤ 3) :
    List.zipWith (fun k n => n % k.count) ks [ns.getD 0 0, ns.getD 1 0, ns.getD 2 0] = ns := by
  match h with
  | .nil => rfl
  | .cons ha .nil => simp [Nat.mod_eq_of_lt ha]
  | .cons ha (.cons hb .nil) => simp [Nat.mod_eq_of_lt ha, Nat.mod_eq_of_lt hb]
  | .cons ha (.cons hb (.cons hc .nil)) => simp [Nat.mod_eq_of_lt ha, Nat.mod_eq_of_lt hb, Nat.mod_eq_of_lt hc]
  | .cons _ (.cons _ (.cons _ (.cons _ _))) =>
    simp only [List.length_cons] at hlen
    omega

/-- `shr` and `shl` assemble with the ignored field 0 (R73). -/
theorem fieldY_encode_buildInstr {m : Mnemonic} (a b c : Nat) (h : m = .shrReg ∨ m = .shlReg) :
    fieldY (encode (buildInstr m a b c)) = 0 := by
  obtain rfl | rfl := h
  · exact fieldY_nibbles ..
  · exact fieldY_nibbles ..

end Sys2Proof

open Sys2Proof Sys2Proof.Machine

/-- Settles O1, by `decode_encode`. -/
theorem decodeOfEncodeIsTheInstruction : Obligations.DecodeOfEncodeIsTheInstruction := decode_encode

/-- Settles O2, by `encode_of_decode`. -/
theorem encodeOfDecodedWordIsTheWord : Obligations.EncodeOfDecodedWordIsTheWord := fun _ _ => encode_of_decode

/-- Settles O3: a word that decodes is its instruction's word, which lies in the row. -/
theorem decodeFollowsTheOpcodeTable : Obligations.DecodeFollowsTheOpcodeTable := by
  refine fun w m => ⟨?_, decode_of_matchesWord⟩
  rintro ⟨i, hi, rfl⟩
  rw [← encode_of_decode hi]
  exact encode_matchesWord i

/-- Settles O4: family by family; a family with no selector refuses no word. -/
theorem unknownWordsAreThoseOfTheList : Obligations.UnknownWordsAreThoseOfTheList := by
  intro w
  rw [← fieldFam_toNat]
  unfold decode
  split
  case h_1 hf => simp [hf, decodeSystem_error_iff]
  case h_6 hf | h_10 hf => simp [hf, decodeCompare_error_iff]
  case h_9 hf => simp [hf, decodeAlu_error_iff]
  case h_15 hf => simp [hf, decodeKey_error_iff]
  case h_16 =>
    have hf : (fieldFam w).toNat = 0xF := by
      have := (fieldFam w).isLt
      simp only [imp_false] at *
      omega
    simp [hf, decodeMisc_error_iff]
  all_goals next hf => simp [hf]

/-- Settles O5: the word is the one of its instruction, whose fields are its operands. -/
theorem operandsSitInTheirFields : Obligations.OperandsSitInTheirFields := by
  intro w i h
  rw [← fieldNNN_toNat, ← fieldX_toNat, ← fieldY_toNat, ← fieldN_toNat, ← fieldNN_toNat]
  obtain rfl := encode_of_decode h
  cases i
  case clearScreen | ret => rfl
  case jump | call | setI | jumpOffset => exact congrArg (fun v => [BitVec.toNat v]) (fieldNNN_addr ..).symm
  all_goals simp [Instr.operands, Instr.mnemonic, Mnemonic.format, Mnemonic.operandKinds, encode]

/-- Settles O7: `buildInstr` keeps the operation, and the operands because they fit. -/
theorem assemblerAcceptsExactlyTheLinesThatFit : Obligations.AssemblerAcceptsExactlyTheLinesThatFit := by
  refine fun l => ⟨fun hwf => ⟨_, if_pos hwf, mnemonic_buildInstr .., ?_, fun hm => ?_⟩, fun hwf i hi => ?_⟩
  · rw [operands_buildInstr]
    exact zipWith_mod_count_of_fits ((operandsFit_iff ..).1 hwf) (length_operandKinds_le _)
  · rw [← fieldY_toNat, fieldY_encode_buildInstr _ _ _ hm]
    rfl
  · rw [assemble, hwf] at hi
    cases hi

/-- Settles O6: eighteen closed words, evaluated. -/
theorem specWordsDecodeAsWritten : Obligations.SpecWordsDecodeAsWritten := by
  unfold Obligations.SpecWordsDecodeAsWritten
  decide

end

section
/-! Who writes what (spec 10_state.md R8 to R20, 40_step_and_host_ops.md R91): each instruction's footprint, and that an
instruction takes its own one fault or writes its footprint. -/

namespace Sys2Proof.Machine

/-! ## Updates inside a footprint -/

theorem Unchanged.refl (f : Footprint) (s : State) : Unchanged f s s where
  regs _ _ := rfl
  addrReg _ := rfl
  sp _ := rfl
  stack _ := rfl
  delay _ := rfl
  sound _ := rfl
  display _ := rfl
  random _ := rfl
  bytes _ _ := rfl
  key := rfl
  fault := rfl

section updates
variable {f : Footprint} {s t : State} (h : Unchanged f s t)
include h

/-- `PC` is in no footprint. -/
theorem Unchanged.setPc (w : Word) : Unchanged f s (t.setPc w) := { h with }

theorem Unchanged.skipIf (c : Bool) : Unchanged f s (t.skipIf c) := by
  cases c
  · exact h
  · exact h.setPc _

theorem Unchanged.setV {x : RegIdx} (hx : x ∈ f.regs) (b : Byte) : Unchanged f s (t.setV x b) :=
  { h with
    regs := fun r hr => by
      have hne : r ≠ x := fun e => hr (e ▸ hx)
      rw [State.V_setV, if_neg hne, h.regs r hr] }

theorem Unchanged.setI (hf : f.addrReg = true) (w : Word) : Unchanged f s (t.setI w) :=
  { h with addrReg := fun hn => by simp [hf] at hn }

theorem Unchanged.writeFlagThenResult {x : RegIdx} (hx : x ∈ f.regs) (hflag : 15#4 ∈ f.regs) (flag b : Byte) :
    Unchanged f s (t.writeFlagThenResult flag x b) := (h.setV hflag flag).setV hx b

theorem Unchanged.loadRegs {bs : List Byte} (hbs : ∀ r : RegIdx, r.toNat < bs.length → r ∈ f.regs) :
    Unchanged f s (t.loadRegs bs) :=
  { h with
    regs := fun r hr => by
      rw [State.V_loadRegs, if_neg (mt (hbs r) hr), h.regs r hr] }

theorem Unchanged.waitKeyWith (pick : List KeyCode → KeyCode) {x : RegIdx} (hx : x ∈ f.regs) :
    Unchanged f s (waitKeyWith pick x t) := by
  cases hk : t.keysDown with
  | nil => rw [waitKeyWith_of_nil pick x hk]; exact h.setPc _
  | cons k ks => rw [waitKeyWith_of_cons pick x hk]; exact h.setV hx _

theorem Unchanged.withDisp (hf : f.display = true) (d : Display) : Unchanged f s { t with disp := d } :=
  { h with display := fun hn => by simp [hf] at hn }

theorem Unchanged.drawRandom (hf : f.random = true) : Unchanged f s t.drawRandom.2 :=
  { h with random := fun hn => by simp [hf] at hn }

/-- A block write changes only the bytes of the block. -/
theorem Unchanged.writeList {a : Nat} {bs : List Byte} (hf : f.bytes = (a, bs.length)) :
    Unchanged f s { t with mem := Memory.writeList t.mem a bs } :=
  { h with
    bytes := fun c hc => by
      rw [hf] at hc
      exact (Memory.read_writeList_outside bs t.mem hc).trans (h.bytes c (hf ▸ hc)) }

end updates

/-! ## The footprint of an instruction -/

/-- `V[0]` to `V[x]`, the registers `reg-load` writes (R145). -/
def regIdxsUpTo (x : RegIdx) : List RegIdx := (List.range (x.toNat + 1)).map (BitVec.ofNat 4)

theorem mem_regIdxsUpTo {x r : RegIdx} : r ∈ regIdxsUpTo x ↔ r.toNat ≤ x.toNat := by
  simp only [regIdxsUpTo, List.mem_map, List.mem_range]
  constructor
  · rintro ⟨k, hk, rfl⟩
    have hle := Nat.mod_le k (2 ^ 4)
    rw [BitVec.toNat_ofNat]
    omega
  · exact fun h => ⟨r.toNat, Nat.lt_succ_of_le h, by simp⟩

/-- What an instruction may write apart from `PC` when it does not fault (R91). -/
def footprint (i : Instr) (s : State) : Footprint :=
  match i with
  | .clearScreen => { display := true }
  | .ret | .call _ => { stack := true }
  | .jump _ | .jumpOffset _ | .skipEqImm _ _ | .skipNeImm _ _ | .skipEqReg _ _ | .skipNeReg _ _ | .skipKeyPressed _
  | .skipKeyReleased _ => {}
  | .setImm x _ | .addImm x _ | .copyReg x _ | .orReg x _ | .andReg x _ | .xorReg x _ | .getDelay x | .waitKey x =>
    { regs := [x] }
  | .addReg x _ | .subReg x _ | .shrReg x _ | .subnReg x _ | .shlReg x _ => { regs := [x, 15] }
  | .setI _ | .addI _ | .fontChar _ => { addrReg := true }
  | .rand x _ => { regs := [x], random := true }
  | .draw _ _ _ => { regs := [15], display := true }
  | .setDelay _ => { delay := true }
  | .setSound _ => { sound := true }
  | .storeBcd _ => { bytes := (s.effAddr 0, 3) }
  | .regDump x => { addrReg := true, bytes := (s.effAddr 0, x.toNat + 1) }
  | .regLoad x => { regs := regIdxsUpTo x, addrReg := true }

/-- A meaning that raises on a condition raises, or answers a state with whatever its other branch has. -/
theorem raise_or_next_of_ite {c : Prop} [Decidable c] {o : Host.Outcome State Fault Refusal} {i : Instr} {code : FaultCode}
    {addr : Word} {s u : State} {p : State → Prop} (ho : o = if c then raise i code addr s else .next u)
    (hi : faultCause i = some code) (hu : p u) :
    (∃ code addr, faultCause i = some code ∧ o = raise i code addr s) ∨ ∃ t, o = .next t ∧ p t := by
  by_cases hc : c
  · exact .inl ⟨code, addr, hi, ho.trans (if_pos hc)⟩
  · exact .inr ⟨u, ho.trans (if_neg hc), hu⟩

/-- Everything an instruction can do: it takes its own one fault, or writes inside its footprint (R91, R177, R179). -/
theorem exec_cases (i : Instr) (s : State) :
    (∃ code addr, faultCause i = some code ∧ exec i s = raise i code addr s) ∨
      ∃ t, exec i s = .next t ∧ Unchanged (footprint i s) s t := by
  have hs : Unchanged (footprint i s) s s := .refl ..
  cases i
  case ret =>
    obtain h0 | hpos := Nat.eq_zero_or_pos s.sp
    · exact .inl ⟨_, _, rfl, execRet_of_zero h0⟩
    · exact .inr ⟨_, execRet_of_pos hpos, { hs with sp := nofun, stack := nofun }⟩
  case call nnn =>
    obtain hlt | hle := Nat.lt_or_ge s.sp Config.params.stackDepth
    · exact .inr ⟨_, execCallWith_of_lt nnn hlt, { hs with sp := nofun, stack := nofun }⟩
    · exact .inl ⟨_, _, rfl, execCallWith_of_le nnn hle⟩
  case skipKeyPressed | skipKeyReleased => exact raise_or_next_of_ite rfl rfl (hs.skipIf _)
  case draw x y n =>
    exact raise_or_next_of_ite (execDraw_eq x y n s) rfl ((hs.withDisp rfl _).setV (List.mem_singleton_self _) _)
  case storeBcd x => exact raise_or_next_of_ite (execStoreBcd_eq x s) rfl (hs.writeList rfl)
  case regDump x =>
    refine raise_or_next_of_ite (execRegDump_eq x s) rfl ((hs.writeList ?_).setI rfl _)
    rw [State.regsUpTo, List.length_map, List.length_range]
    rfl
  case regLoad x =>
    refine raise_or_next_of_ite (execRegLoad_eq x s) rfl ((hs.loadRegs fun r hr => mem_regIdxsUpTo.2 ?_).setI rfl _)
    rw [List.length_map, List.length_range] at hr
    exact Nat.le_of_lt_succ hr
  all_goals refine .inr ⟨_, rfl, ?_⟩
  case clearScreen => exact hs.withDisp rfl _
  case jump | jumpOffset => exact hs.setPc _
  case skipEqImm | skipNeImm | skipEqReg | skipNeReg => exact hs.skipIf _
  case setImm | addImm | copyReg | orReg | andReg | xorReg | getDelay => exact hs.setV (List.mem_singleton_self _) _
  case waitKey => exact hs.waitKeyWith _ (List.mem_singleton_self _)
  case addReg | subReg | shrReg | subnReg | shlReg =>
    exact hs.writeFlagThenResult List.mem_cons_self (List.mem_cons_of_mem _ List.mem_cons_self) _ _
  case setI | addI | fontChar => exact hs.setI rfl _
  case rand => exact (hs.drawRandom rfl).setV (List.mem_singleton_self _) _
  case setDelay => exact { hs with delay := nofun }
  case setSound => exact { hs with sound := nofun }

/-- Every instruction answers a next state: a fault is one too (R177; log 1). -/
theorem exec_answers (i : Instr) (s : State) : ∃ t, exec i s = .next t := by
  obtain ⟨code, addr, -, hf⟩ | ⟨t, ht, -⟩ := exec_cases i s
  · exact ⟨_, hf.trans (raise_eq ..)⟩
  · exact ⟨t, ht⟩

/-- Faulting or not, an instruction writes nothing but `PC`, the fault record and its footprint (R91, R177). -/
theorem unchanged_of_exec {i : Instr} {s t : State} (h : exec i s = .next t) :
    Unchanged (footprint i s) s { t with fault := s.fault } := by
  obtain ⟨code, addr, -, hf⟩ | ⟨u, hu, hun⟩ := exec_cases i s
  · cases hf.symm.trans h
    exact (Unchanged.refl _ s).setPc _
  · cases hu.symm.trans h
    exact { hun with fault := rfl }

end Sys2Proof.Machine

open Sys2Proof Sys2Proof.Machine

/-- Settles O20: the key flags are in no footprint, and each timer is in one. -/
theorem onlySetDelayAndSetSoundWriteTimers : Obligations.OnlySetDelayAndSetSoundWriteTimers := by
  intro i s t h
  have hun := unchanged_of_exec h
  refine ⟨hun.key, fun hdelay => hun.delay ?_, fun hsound => hun.sound ?_⟩
  · cases i
    case setDelay x => exact absurd rfl (hdelay x)
    all_goals rfl
  · cases i
    case setSound x => exact absurd rfl (hsound x)
    all_goals rfl

/-- Settles O21: of all footprints only those of the instructions named have the display, the stack, the random byte. -/
theorem onlyTheirInstructionsWriteDisplayAndStack : Obligations.OnlyTheirInstructionsWriteDisplayAndStack := by
  intro i s t h
  have hun := unchanged_of_exec h
  refine ⟨fun hclear hdraw => hun.display ?_, fun hret hcall => ?_, fun hrand => hun.random ?_⟩
  · cases i
    case clearScreen => exact absurd rfl hclear
    case draw x y n => exact absurd rfl (hdraw x y n)
    all_goals rfl
  · have hstack : (footprint i s).stack = false := by
      cases i
      case ret => exact absurd rfl hret
      case call nnn => exact absurd rfl (hcall nnn)
      all_goals rfl
    exact ⟨hun.sp hstack, hun.stack hstack⟩
  · cases i
    case rand x nn => exact absurd rfl (hrand x nn)
    all_goals rfl

/-- Settles O22: five footprints have the address register. -/
theorem onlyFiveInstructionsWriteTheAddressRegister : Obligations.OnlyFiveInstructionsWriteTheAddressRegister := by
  intro i s t h hset hadd hfont hdump hload
  refine (unchanged_of_exec h).addrReg ?_
  cases i
  case setI nnn => exact absurd rfl (hset nnn)
  case addI x => exact absurd rfl (hadd x)
  case fontChar x => exact absurd rfl (hfont x)
  case regDump x => exact absurd rfl (hdump x)
  case regLoad x => exact absurd rfl (hload x)
  all_goals rfl

/-- Settles O23: where `VF` changes it is in the footprint, as the flag, as the register named, or because `reg-load` has 16
registers. -/
theorem onlyFlagWritersAndNamedDestinationsChangeVF : Obligations.OnlyFlagWritersAndNamedDestinationsChangeVF := by
  intro i s t h hvf
  have hmem : 15 ∈ (footprint i s).regs := by
    by_contra hn
    exact hvf ((unchanged_of_exec h).regs 15 hn)
  cases i
  case addReg x y | subReg x y | shrReg x y | subnReg x y | shlReg x y => exact .inl ⟨x, y, by simp⟩
  case draw x y n => exact .inr (.inl ⟨x, y, n, rfl⟩)
  case setImm | addImm | rand | copyReg | orReg | andReg | xorReg | getDelay | waitKey =>
    obtain rfl := List.mem_singleton.1 hmem
    simp
  case regLoad x =>
    have hx : x = 15 := by
      have hle : 15 ≤ x.toNat := mem_regIdxsUpTo.1 hmem
      bv_omega
    simp [hx]
  all_goals cases hmem

end

section
/-! The step and its report (spec 40_step_and_host_ops.md R80 to R86), and the host's transactions `tick`, `key_press` and
`key_release` (R87 to R89). -/

namespace Sys2Proof.Machine

theorem State.report_of_running {s : State} (h : s.fault.valid = false) : s.report = .ok := by
  rw [State.report, h]
  rfl

theorem State.report_of_halted {s : State} (h : s.fault.valid = true) :
    s.report = .fault s.fault.code s.fault.pc s.fault.instr s.fault.addr := if_pos h

/-- The report is `Ok` or the fault recorded (R21, R86). -/
theorem State.report_ok_or_recorded (s : State) :
    s.report = .ok ∨ ∃ c p w a, s.report = .fault c p w a ∧ s.fault = ⟨true, c, p, w, a⟩ := by
  cases h : s.fault.valid with
  | false => exact .inl (State.report_of_running h)
  | true => exact .inr ⟨_, _, _, _, State.report_of_halted h, by rw [← h]⟩

/-- A timer that has run out stays at 0, as subtraction of naturals does (R87). -/
theorem countDown_toNat (b : Byte) : (countDown b).toNat = b.toNat - 1 := by
  by_cases h : b = 0
  · subst h
    rfl
  · rw [countDown, if_neg h]
    bv_omega

end Sys2Proof.Machine

open Sys2Proof Sys2Proof.Machine

/-- Settles O9: up to 4094 the fetch joins two bytes; above it the step records the lowest invalid address. -/
theorem fetchSucceedsExactlyUpTo4094 : Obligations.FetchSucceedsExactlyUpTo4094 := by
  intro s
  refine ⟨fun hpc => ⟨_, ?_, joinBytes_toNat ..⟩, fun hv hpc => ?_, fun hv hpc => ?_⟩
  · rw [State.fetch_eq, if_neg (Nat.not_lt.2 hpc)]
  · rw [step_fetch_fault hv (by omega), hpc]
    rfl
  · rw [step_fetch_fault hv (by omega), Nat.max_eq_left hpc, BitVec.ofNat_toNat, BitVec.setWidth_eq]
    rfl

/-- Settles O12: in each of the four ways a step can go it answers a next state. -/
theorem everyStepAnswersANextState : Obligations.EveryStepAnswersANextState := by
  intro s
  have hnext : ∃ t, step s = .next t := by
    obtain ⟨-, hs⟩ | ⟨-, -, hs⟩ | ⟨-, -, i, -, hs⟩ | ⟨-, -, e, -, hs⟩ := step_cases s
    · exact ⟨_, hs⟩
    · exact ⟨_, hs⟩
    · exact hs ▸ exec_answers i s.advance
    · exact ⟨_, hs⟩
  obtain ⟨t, ht⟩ := hnext
  exact ⟨t, ht, t.report_ok_or_recorded⟩

/-- Settles O8, by `step_decoded`. -/
theorem stepRunsTheDecodedInstruction : Obligations.StepRunsTheDecodedInstruction :=
  fun _ _ hv hpc hi => step_decoded hv hpc hi

/-- Settles O11, by `step_halted`. -/
theorem haltedStepChangesNothing : Obligations.HaltedStepChangesNothing :=
  fun _ h => ⟨step_halted h, State.report_of_halted h⟩

/-- Settles O55: both timers count down, and a tick writes nothing else. -/
theorem tickCountsBothTimersDownToZero : Obligations.TickCountsBothTimersDownToZero :=
  fun s => ⟨countDown_toNat s.dt, countDown_toNat s.st, rfl, { Unchanged.refl _ s with delay := nofun, sound := nofun }⟩

/-- Settles O56: both events are one `setKey`, of which every other key flag is independent. -/
theorem keyEventsSetOneFlag : Obligations.KeyEventsSetOneFlag := by
  refine fun s k => ⟨fun j => ?_, fun j => ?_, rfl, rfl⟩
  · rw [State.keyPress, State.keyDown_setKey]
    by_cases hj : j = k <;> simp [hj]
  · rw [State.keyRelease, State.keyDown_setKey]
    by_cases hj : j = k <;> simp [hj]

end

section
/-! Every step keeps the invariant (spec 10_state.md R15, R19, R21, R23, 60_exceptions.md R177), under any parameters: a fault
leaves a record that describes the instruction at `PC`, and without one memory stays canonical and the stack loses a live slot
or gains the address a `call` saves. -/

namespace Sys2Proof.Machine

/-! ## `return` and `call` as one equation each -/

/-- `return` faults on an empty stack, else goes to the newest saved address (R100, R172). -/
theorem execRet_eq (s : State) :
    execRet s =
      if s.sp = 0 then raise .ret .stackUnderflow 0 s else .next { s with sp := s.sp - 1, pc := s.slot (s.sp - 1) } := by
  split_ifs with h
  · exact execRet_of_zero h
  · exact execRet_of_pos (Nat.pos_of_ne_zero h)

/-- `call` faults on a full stack, else saves `PC` and goes to its operand (R102, R173). -/
theorem execCallWith_eq (P : Params) (nnn : Addr12) (s : State) :
    execCallWith P nnn s =
      if P.stackDepth ≤ s.sp then raise (.call nnn) .stackOverflow 0 s
      else .next { s with pc := zext16 nnn, stack := s.stack.set s.sp s.pc, sp := s.sp + 1 } := by
  split_ifs with h
  · exact execCallWith_of_le nnn h
  · exact execCallWith_of_lt nnn (Nat.lt_of_not_le h)

/-! ## What an instruction does under any parameters -/

/-- Everything an instruction can do, whatever the parameters: its own one fault, or a write inside its footprint (R6, R91,
R179). -/
theorem execWith_cases (P : Params) (i : Instr) (s : State) :
    (∃ code addr, faultCause i = some code ∧ execWith P i s = raise i code addr s) ∨
      ∃ t, execWith P i s = .next t ∧ Unchanged (footprint i s) s t := by
  cases i
  case call nnn =>
    exact raise_or_next_of_ite (execCallWith_eq P nnn s) rfl { Unchanged.refl _ s with sp := nofun, stack := nofun }
  case waitKey x => exact .inr ⟨_, rfl, (Unchanged.refl _ s).waitKeyWith _ (List.mem_singleton_self _)⟩
  all_goals exact exec_cases _ s

/-- Faulting or not, an instruction writes nothing but `PC`, the fault record and its footprint, whatever the parameters (R91,
R177). -/
theorem unchanged_of_execWith {P : Params} {i : Instr} {s t : State} (h : execWith P i s = .next t) :
    Unchanged (footprint i s) s { t with fault := s.fault } := by
  obtain ⟨code, addr, -, hr⟩ | ⟨u, hu, hun⟩ := execWith_cases P i s
  · cases hr.symm.trans h
    exact (Unchanged.refl _ s).setPc _
  · cases hu.symm.trans h
    exact { hun with fault := rfl }

/-- Memory is written by `store-bcd` and `reg-dump` alone, whatever the parameters (R6, R47). -/
theorem execWith_mem {P : Params} {i : Instr} {s t : State} (h : execWith P i s = .next t) (hbcd : ∀ x, i ≠ .storeBcd x)
    (hdump : ∀ x, i ≠ .regDump x) : t.mem = s.mem := by
  cases i
  case call nnn => exact mem_of_next ((execCallWith_eq P nnn s).symm.trans h) rfl
  case waitKey x => cases h; exact waitKeyWith_mem ..
  all_goals
    refine onlyStoreInstructionsWriteMemory _ s t ?_ hbcd hdump
    exact h

/-- A meaning that faults on a condition, else writes a list of bytes, keeps the canonical form of memory. -/
theorem mem_wf_of_next {c : Prop} [Decidable c] {i : Instr} {code : FaultCode} {addr : Word} {s t u : State} {a : Nat}
    {bs : List Byte} (h : (if c then raise i code addr s else .next u) = .next t)
    (hu : u.mem = Memory.writeList s.mem a bs) (hm : s.mem.wf = true) : t.mem.wf = true := by
  split_ifs at h
  · cases h
    exact hm
  · cases h
    rw [hu]
    exact Memory.writeList_wf a bs hm

/-- No instruction breaks the canonical form of memory (R19, R47). -/
theorem execWith_mem_wf {P : Params} {i : Instr} {s t : State} (h : execWith P i s = .next t) (hm : s.mem.wf = true) :
    t.mem.wf = true := by
  cases i
  case storeBcd x => exact mem_wf_of_next ((execStoreBcd_eq x s).symm.trans h) rfl hm
  case regDump x => exact mem_wf_of_next ((execRegDump_eq x s).symm.trans h) rfl hm
  all_goals
    rw [execWith_mem h (fun _ => nofun) (fun _ => nofun)]
    exact hm

/-- What an instruction can do to the stack: keep the slots with no more of them live, or save `PC` in a free one (R15, R100,
R102). -/
def StackKeptOrPushed (P : Params) (s t : State) : Prop :=
  (t.sp ≤ s.sp ∧ t.stack = s.stack) ∨ (s.sp < P.stackDepth ∧ t.sp = s.sp + 1 ∧ t.stack = s.stack.set s.sp s.pc)

/-- Only `return` pops and only `call` pushes; the stack is in no other footprint (R15). -/
theorem execWith_stack {P : Params} {i : Instr} {s t : State} (h : execWith P i s = .next t) :
    StackKeptOrPushed P s t := by
  cases i
  case ret =>
    have he := (execRet_eq s).symm.trans h
    split_ifs at he
    · cases he; exact .inl ⟨Nat.le_refl _, rfl⟩
    · cases he; exact .inl ⟨Nat.sub_le .., rfl⟩
  case call nnn =>
    have he := (execCallWith_eq P nnn s).symm.trans h
    split_ifs at he with hfull
    · cases he; exact .inl ⟨Nat.le_refl _, rfl⟩
    · cases he; exact .inr ⟨Nat.lt_of_not_le hfull, rfl, rfl⟩
  all_goals
    have hun := unchanged_of_execWith h
    exact .inl ⟨(hun.sp rfl).le, hun.stack rfl⟩

/-! ## The address a fault records -/

/-- A memory-range fault names an address outside the memory, any other cause the address 0 (R170, R171). -/
def FaultCode.AddrFits (code : FaultCode) (addr : Word) : Prop :=
  (code = .memRange → 4096 ≤ addr.toNat) ∧ (code ≠ .memRange → addr = 0)

theorem FaultCode.addrFits_zero {code : FaultCode} (h : code ≠ .memRange) : code.AddrFits 0 :=
  ⟨fun hm => absurd hm h, fun _ => rfl⟩

/-- The lowest invalid address of a block is outside the memory, whatever word the block's base is (R171). -/
theorem addrFits_lowestInvalid (base : Word) :
    FaultCode.memRange.AddrFits (BitVec.ofNat 16 (max base.toNat 4096)) := by
  have hbase := base.isLt
  have hmod : max base.toNat 4096 % 2 ^ 16 = max base.toNat 4096 := Nat.mod_eq_of_lt (by omega)
  refine ⟨fun _ => ?_, fun hn => absurd rfl hn⟩
  rw [BitVec.toNat_ofNat, hmod]
  exact Nat.le_max_right ..

/-- A running core that raises, by a meaning that raises on a condition, raises as that branch does. -/
theorem addrFits_of_ite {c : Prop} [Decidable c] {o : Host.Outcome State Fault Refusal} {i : Instr}
    {code code' : FaultCode} {addr addr' : Word} {s u : State} (hv : s.fault.valid = false)
    (h : o = raise i code' addr' s) (ho : o = if c then raise i code addr s else .next u) (hu : u.fault = s.fault)
    (ha : code.AddrFits addr) : code'.AddrFits addr' := by
  have he := ho.symm.trans h
  split_ifs at he
  · have hrec := congrArg State.fault (Host.Outcome.next.inj he)
    cases hrec
    exact ha
  · have hvalid : u.fault.valid = true := congrArg (·.fault.valid) (Host.Outcome.next.inj he)
    rw [hu, hv] at hvalid
    cases hvalid

/-- The address an instruction's fault records fits its cause (R170, R171). -/
theorem addrFits_of_execWith_raise {P : Params} {i : Instr} {s : State} {code : FaultCode} {addr : Word}
    (hv : s.fault.valid = false) (hc : faultCause i = some code) (h : execWith P i s = raise i code addr s) :
    code.AddrFits addr := by
  cases i
  case ret => exact addrFits_of_ite hv h (execRet_eq s) rfl (FaultCode.addrFits_zero nofun)
  case call nnn => exact addrFits_of_ite hv h (execCallWith_eq P nnn s) rfl (FaultCode.addrFits_zero nofun)
  case skipKeyPressed | skipKeyReleased =>
    exact addrFits_of_ite hv h rfl (State.skipIf_fault ..) (FaultCode.addrFits_zero nofun)
  case draw x y n => exact addrFits_of_ite hv h (execDraw_eq x y n s) rfl (addrFits_lowestInvalid s.iReg)
  case storeBcd x => exact addrFits_of_ite hv h (execStoreBcd_eq x s) rfl (addrFits_lowestInvalid s.iReg)
  case regDump x => exact addrFits_of_ite hv h (execRegDump_eq x s) rfl (addrFits_lowestInvalid s.iReg)
  case regLoad x => exact addrFits_of_ite hv h (execRegLoad_eq x s) rfl (addrFits_lowestInvalid s.iReg)
  all_goals cases hc

theorem faultCause_ne_none (i : Instr) : faultCause i ≠ some .none := by
  cases i <;> nofun

/-! ## The invariant -/

/-- Taking a fault keeps the invariant when the record describes the instruction at `PC` (R177). -/
theorem State.Inv.withFault {P : Params} {s : State} (hs : s.Inv P) {code : FaultCode} {instr addr : Word}
    (hcode : code ≠ .none) (hinstr : instr = s.wordAtPc) (haddr : code.AddrFits addr) :
    State.Inv P { s with fault := ⟨true, code, s.pc, instr, addr⟩ } :=
  { hs with
    running := nofun
    cause := fun _ => hcode
    faultPc := fun _ => rfl
    faultInstr := fun _ => hinstr
    faultAddr := fun _ => haddr }

/-- A running core that goes on without a fault keeps the invariant when memory stays canonical and the stack loses live slots
or gains an address a `call` can push (R15, R102). -/
theorem State.Inv.of_running {P : Params} {s t : State} (hs : s.Inv P) (hv : s.fault.valid = false)
    (hfault : t.fault = s.fault) (hmem : t.mem.wf = true) (hpc : s.pc.toNat ≤ 4096)
    (hstack : StackKeptOrPushed P s t) : t.Inv P := by
  have htv : ¬ t.fault.valid = true := by rw [hfault, hv]; nofun
  have hstackInv : t.stack.length = P.stackDepth ∧ t.sp ≤ P.stackDepth ∧ ∀ j, j < t.sp → (t.slot j).toNat ≤ 4096 := by
    obtain ⟨hsp, hst⟩ | ⟨hlt, hsp, hst⟩ := hstack
    · refine ⟨hst ▸ hs.slots, hsp.trans hs.depth, fun j hj => ?_⟩
      rw [State.slot, hst]
      exact hs.returnAddresses j (hj.trans_le hsp)
    · refine ⟨?_, hsp ▸ hlt, fun j hj => ?_⟩
      · rw [hst, List.length_set, hs.slots]
      · rw [State.slot_set s t (hs.slots ▸ hlt) hst]
        split_ifs with hjsp
        · exact hpc
        · exact hs.returnAddresses j (by omega)
  obtain ⟨hslots, hdepth, hret⟩ := hstackInv
  exact
    { memory := hmem
      slots := hslots
      depth := hdepth
      returnAddresses := hret
      running := fun _ => hfault.trans (hs.running hv)
      cause := fun h => absurd h htv
      faultPc := fun h => absurd h htv
      faultInstr := fun h => absurd h htv
      faultAddr := fun h => absurd h htv }

/-- The advance of `PC` after a fetch keeps the invariant, which `PC` of a running core has no part in (R23, R82). -/
theorem State.Inv.advance {P : Params} {s : State} (hs : s.Inv P) (hv : s.fault.valid = false) (hpc : s.pc.toNat ≤ 4094) :
    s.advance.Inv P :=
  hs.of_running hv rfl hs.memory (by omega) (.inl ⟨Nat.le_refl _, rfl⟩)

theorem State.wordAtPc_of_le {s : State} (h : s.pc.toNat ≤ 4094) :
    s.wordAtPc = joinBytes (Memory.read s.mem s.pc.toNat) (Memory.read s.mem (s.pc.toNat + 1)) := if_pos h

theorem State.wordAtPc_of_lt {s : State} (h : 4094 < s.pc.toNat) : s.wordAtPc = 0 := if_neg (Nat.not_le.2 h)

/-- Executing the instruction at `PC` keeps the invariant: its fault records the word it was decoded from, and a `call` pushes
the next address, at most 4096 (R82 to R84, R177). -/
theorem inv_of_execWith {P : Params} {s t : State} {i : Instr} (hs : s.Inv P) (hv : s.fault.valid = false)
    (hpc : s.pc.toNat ≤ 4094) (hi : decode s.wordAtPc = .ok i) (h : execWith P i s.advance = .next t) : t.Inv P := by
  obtain ⟨code, addr, hc, hr⟩ | ⟨u, hu, hun⟩ := execWith_cases P i s.advance
  · have hcode : code ≠ .none := fun e => faultCause_ne_none i (e ▸ hc)
    cases hr.symm.trans h
    rw [State.pc0, State.takeFault_advance]
    exact hs.withFault hcode (encode_of_decode hi) (addrFits_of_execWith_raise (s := s.advance) hv hc hr)
  · cases hu.symm.trans h
    have hnpc : s.advance.pc.toNat ≤ 4096 := by
      rw [State.advance_pc]
      bv_omega
    exact (hs.advance hv hpc).of_running hv hun.fault (execWith_mem_wf h hs.memory) hnpc (execWith_stack h)

/-- An unknown word keeps the invariant under both policies (R174). -/
theorem State.Inv.unknownOpcode {P : Params} {s : State} (hs : s.Inv P) (hv : s.fault.valid = false)
    (hpc : s.pc.toNat ≤ 4094) (policy : UnknownOpcodePolicy) :
    (s.advance.unknownOpcode policy s.wordAtPc).Inv P := by
  cases policy with
  | fault =>
    rw [State.unknownOpcode_fault, State.takeFault_advance]
    exact hs.withFault nofun rfl (FaultCode.addrFits_zero nofun)
  | nop => exact hs.advance hv hpc

/-- A step keeps the invariant under any parameters, in each of the four ways it can go (R80, R179). -/
theorem inv_of_stepWith {P : Params} {s t : State} (hs : s.Inv P) (h : stepWith P s = .next t) : t.Inv P := by
  obtain ⟨-, ht⟩ | ⟨-, hpc, ht⟩ | ⟨hv, hpc, i, hi, ht⟩ | ⟨hv, hpc, e, -, ht⟩ := stepWith_cases P s
  · cases ht.symm.trans h
    exact hs
  · cases ht.symm.trans h
    exact hs.withFault nofun (State.wordAtPc_of_lt hpc).symm (addrFits_lowestInvalid s.pc)
  · rw [← State.wordAtPc_of_le hpc] at hi
    exact inv_of_execWith hs hv hpc hi (ht.symm.trans h)
  · cases ht.symm.trans h
    rw [← State.wordAtPc_of_le hpc]
    exact hs.unknownOpcode hv hpc _

end Sys2Proof.Machine

open Sys2Proof Sys2Proof.Machine

/-- Settles O17, by `inv_of_stepWith` under the default setting. -/
theorem everyStepKeepsTheInvariant : Obligations.EveryStepKeepsTheInvariant := fun _ _ hs h => inv_of_stepWith hs h

end

section
/-! Control transfer (spec 41_flow.md R100 to R107): `call` and `return`, the jumps, the register skips. -/

open Sys2Proof Sys2Proof.Machine

/-- Settles O36, by the equations of `call` below the maximum depth and at it. -/
theorem callSavesTheNextAddress : Obligations.CallSavesTheNextAddress := by
  refine fun nnn s => ⟨fun hlt => ⟨_, execCallWith_of_lt nnn hlt, toNat_zext16 (by decide) nnn, rfl, fun hlen => ?_,
    fun j hj => State.slot_set_ne s _ rfl hj, { Unchanged.refl _ s with sp := nofun, stack := nofun }⟩,
    fun hle => execCallWith_of_le nnn hle⟩
  rw [State.slot_set s _ (hlen ▸ hlt) rfl, if_pos rfl]

/-- Settles O37, by the equations of `return` with a saved address and with none. -/
theorem returnPopsTheNewestAddress : Obligations.ReturnPopsTheNewestAddress :=
  fun s => ⟨fun hpos => ⟨_, execRet_of_pos hpos, rfl, rfl, rfl,
    { Unchanged.refl _ s with sp := nofun, stack := nofun }⟩, fun h0 => execRet_of_zero h0⟩

/-- Settles O38: the `return` reads the slot the `call` wrote, and the slots below it were not written. -/
theorem callThenReturnComesBack : Obligations.CallThenReturnComesBack := by
  intro nnn s p hlen hlt
  obtain ⟨t, ht, -, htsp, hsaved, hkept, -⟩ := (callSavesTheNextAddress nnn s).1 hlt
  have htop : t.sp - 1 = s.sp := by omega
  have hpos : 0 < (t.setPc p).sp := by rw [State.setPc_sp]; omega
  obtain ⟨u, hu, husp, hupc, hustack, -⟩ := (returnPopsTheNewestAddress (t.setPc p)).1 hpos
  refine ⟨t, u, ht, hu, ?_, husp.trans htop, fun j hj => ?_⟩
  · calc u.pc
      _ = t.slot (t.sp - 1) := hupc
      _ = s.pc := by rw [htop, hsaved hlen]
  · calc u.slot j
      _ = t.slot j := by rw [State.slot, hustack]; rfl
      _ = s.slot j := hkept j hj.ne

/-- Settles O34: a 12-bit target fits `PC`. -/
theorem jumpSetsTheProgramCounterAlone : Obligations.JumpSetsTheProgramCounterAlone :=
  fun nnn s => ⟨_, rfl, toNat_zext16 (by decide) nnn, (Unchanged.refl _ s).setPc _⟩

/-- Settles O35, by `toNat_jumpOffset`. -/
theorem jumpOffsetAddsRegisterZero : Obligations.JumpOffsetAddsRegisterZero :=
  fun nnn s => ⟨_, rfl, toNat_jumpOffset nnn (s.V 0), (Unchanged.refl _ s).setPc _⟩

/-- Settles O39: each of the four is one skip, on its own condition. -/
theorem registerSkipsMoveTheProgramCounterAlone : Obligations.RegisterSkipsMoveTheProgramCounterAlone := by
  intro x y nn s
  have hskip : ∀ c, Unchanged {} s (s.skipIf c) := (Unchanged.refl _ s).skipIf
  exact ⟨⟨_, rfl, by simp, hskip _⟩, ⟨_, rfl, by simp, hskip _⟩, ⟨_, rfl, by simp, hskip _⟩, ⟨_, rfl, by simp, hskip _⟩⟩

/-- Settles O40: the jump undoes the advance of `PC`. -/
theorem selfJumpLeavesTheStateUnchanged : Obligations.SelfJumpLeavesTheStateUnchanged := by
  intro s nnn hv hf hnnn
  have htarget : zext16 nnn = s.pc := BitVec.eq_of_toNat_eq ((toNat_zext16 (by decide) nnn).trans hnnn)
  calc step s
    _ = .next (s.advance.setPc (zext16 nnn)) := step_run hv hf (decode_encode _)
    _ = .next s := by
      rw [htarget]
      rfl

end

section
/-! Load-immediate, arithmetic, logic, shifts and random (spec 42_alu.md R120 to R132): the result in `V[X]`, the flag in
`VF`, and the frame, which is the instruction's footprint. -/

namespace Sys2Proof.Machine

/-! ## The frame of an instruction that raises no fault -/

/-- An instruction without a fault of its own writes nothing but `PC` and its footprint (R91, R179). -/
theorem unchanged_of_faultCause_none (i : Instr) {s t : State} (hi : faultCause i = none) (h : exec i s = .next t) :
    Unchanged (footprint i s) s t := by
  obtain ⟨code, addr, hcode, -⟩ | ⟨u, hu, hun⟩ := exec_cases i s
  · simp [hi] at hcode
  · cases hu.symm.trans h
    exact hun

/-! ## The destination and the flag read back -/

theorem State.V_setV_self (s : State) (x : RegIdx) (b : Byte) : (s.setV x b).V x = b := by
  rw [State.V_setV, if_pos rfl]

/-- The result is written last, so it is what `V[x]` holds, `x` = 15 included (D12; log 10). -/
theorem State.V_writeFlagThenResult_self (s : State) (flag : Byte) (x : RegIdx) (b : Byte) :
    (s.writeFlagThenResult flag x b).V x = b := State.V_setV_self _ x b

theorem State.V_writeFlagThenResult_flag (s : State) (flag : Byte) {x : RegIdx} (hx : x ≠ 15) (b : Byte) :
    (s.writeFlagThenResult flag x b).V 15 = flag := by
  rw [State.V_writeFlagThenResult, if_neg hx.symm]
  exact if_pos rfl

/-! ## The flags as numbers -/

theorem flagByte_decide (p : Prop) [Decidable p] : flagByte (decide p) = if p then 1 else 0 := by
  simp only [flagByte, decide_eq_true_eq]

theorem toNat_flagByte (b : Bool) : (flagByte b).toNat = b.toNat := by
  cases b <;> rfl

theorem toNat_flagByte_getLsbD (a : Byte) (k : Nat) : (flagByte (a.getLsbD k)).toNat = a.toNat / 2 ^ k % 2 :=
  (toNat_flagByte _).trans (Nat.toNat_testBit a.toNat k)

/-- The bit `shr` drops is the remainder by 2 (R128). -/
theorem toNat_lowBitFlag (a : Byte) : (lowBitFlag a).toNat = a.toNat % 2 := by
  rw [lowBitFlag, toNat_flagByte_getLsbD, pow_zero, Nat.div_one]

/-- The bit `shl` drops is the quotient by 128: a byte has no bit above bit 7 (R130). -/
theorem toNat_highBitFlag (a : Byte) : (highBitFlag a).toNat = a.toNat / 128 := by
  have hlt := a.isLt
  rw [highBitFlag, toNat_flagByte_getLsbD]
  omega

/-! ## A difference of bytes -/

/-- A difference of bytes is the one of the integers modulo 256 (R132). -/
theorem intCast_toNat_sub (a b : Byte) : ((a - b).toNat : Int) = (a.toNat - b.toNat : Int) % 256 := by
  have ha := a.isLt
  have hb := b.isLt
  rw [BitVec.toNat_sub]
  omega

end Sys2Proof.Machine

open Sys2Proof Sys2Proof.Machine

/-- Settles O30: the sum and the carry are computed from the old registers, and the sum is written last. -/
theorem addGivesSumAndCarry : Obligations.AddGivesSumAndCarry := by
  refine fun x y s => ⟨_, rfl, rfl, unchanged_of_faultCause_none (.addReg x y) rfl rfl, ?_, fun hx => ?_⟩
  · rw [State.V_writeFlagThenResult_self]
    exact BitVec.toNat_add ..
  · rw [State.V_writeFlagThenResult_flag _ _ hx]
    exact flagByte_decide _

/-- Settles O31: `subn` is `sub` with the operands of the difference and of the flag exchanged. -/
theorem subtractionsGiveDifferenceAndNoBorrow : Obligations.SubtractionsGiveDifferenceAndNoBorrow := by
  refine fun x y s =>
    ⟨⟨_, rfl, rfl, unchanged_of_faultCause_none (.subReg x y) rfl rfl, ?_, fun hx => ?_⟩,
      ⟨_, rfl, rfl, unchanged_of_faultCause_none (.subnReg x y) rfl rfl, ?_, fun hx => ?_⟩⟩
  case refine_1 | refine_3 =>
    rw [State.V_writeFlagThenResult_self]
    exact intCast_toNat_sub ..
  case refine_2 | refine_4 =>
    rw [State.V_writeFlagThenResult_flag _ _ hx]
    exact flagByte_decide _

/-- Settles O32: a shift by one halves or doubles the byte, and the flag is the bit that leaves it. -/
theorem shiftsMoveVXByOneAndIgnoreY : Obligations.ShiftsMoveVXByOneAndIgnoreY := by
  refine fun x y s =>
    ⟨⟨_, rfl, rfl, unchanged_of_faultCause_none (.shrReg x y) rfl rfl, ?_, fun hx => ?_⟩,
      ⟨_, rfl, rfl, unchanged_of_faultCause_none (.shlReg x y) rfl rfl, ?_, fun hx => ?_⟩⟩
  · rw [State.V_writeFlagThenResult_self, BitVec.toNat_ushiftRight, Nat.shiftRight_one]
  · rw [State.V_writeFlagThenResult_flag _ _ hx, toNat_lowBitFlag]
  · rw [State.V_writeFlagThenResult_self, BitVec.toNat_shiftLeft, Nat.shiftLeft_eq, pow_one]
  · rw [State.V_writeFlagThenResult_flag _ _ hx, toNat_highBitFlag]

/-- Settles O28: each form is one register write. -/
theorem immediateFormsWriteTheirRegisterAlone : Obligations.ImmediateFormsWriteTheirRegisterAlone := by
  refine fun x nn s =>
    ⟨⟨_, rfl, State.V_setV_self .., rfl, unchanged_of_faultCause_none (.setImm x nn) rfl rfl⟩,
      ⟨_, rfl, ?_, rfl, unchanged_of_faultCause_none (.addImm x nn) rfl rfl⟩⟩
  rw [State.V_setV_self]
  exact BitVec.toNat_add ..

/-- Settles O29: each form is one register write, of the copy or of the bitwise result. -/
theorem copyAndLogicAreBitwiseWithoutFlags : Obligations.CopyAndLogicAreBitwiseWithoutFlags := by
  refine fun x y s =>
    ⟨⟨_, rfl, State.V_setV_self .., rfl, unchanged_of_faultCause_none (.copyReg x y) rfl rfl⟩,
      ⟨_, rfl, rfl, unchanged_of_faultCause_none (.orReg x y) rfl rfl, fun k => ?_⟩,
      ⟨_, rfl, rfl, unchanged_of_faultCause_none (.andReg x y) rfl rfl, fun k => ?_⟩,
      ⟨_, rfl, rfl, unchanged_of_faultCause_none (.xorReg x y) rfl rfl, fun k => ?_⟩⟩
  · rw [State.V_setV_self, BitVec.getLsbD_or]
  · rw [State.V_setV_self, BitVec.getLsbD_and]
  · rw [State.V_setV_self, BitVec.getLsbD_xor]

/-- Settles O33: the byte drawn is the one the old count names, and the mask works bit by bit. -/
theorem randMasksAFreshFreeByte : Obligations.RandMasksAFreshFreeByte := by
  refine fun x nn s => ⟨_, rfl, rfl, unchanged_of_faultCause_none (.rand x nn) rfl rfl, rfl, fun k => ?_⟩
  rw [State.V_setV_self, BitVec.getLsbD_and]
  exact Bool.and_comm ..

end

section
/-! The address register and memory (spec 43_index_memory.md R140 to R145): `I` as a number, the three digits of `store-bcd`,
and the register block `reg-dump` writes and `reg-load` reads. -/

namespace Sys2Proof.Machine

/-! ## The address register as a number -/

@[simp] theorem State.effAddr_zero (s : State) : s.effAddr 0 = s.iReg.toNat := rfl

/-- Five times a byte is less than 65536, so the product of `font-char` does not wrap (R142). -/
theorem toNat_glyphAddr (b : Byte) : (zext16 b * BitVec.ofNat 16 Config.glyphBytes).toNat = b.toNat * 5 := by
  have hb := b.isLt
  have hfive : (BitVec.ofNat 16 Config.glyphBytes).toNat = 5 := rfl
  rw [BitVec.toNat_mul, toNat_zext16 (by decide), hfive, Nat.mod_eq_of_lt (by omega)]

theorem toNat_addI (w : Word) (b : Byte) : (w + zext16 b).toNat = (w.toNat + b.toNat) % 65536 := by
  rw [BitVec.toNat_add, toNat_zext16 (by decide)]

theorem toNat_advancedI (s : State) (x : RegIdx) : (advancedI s x).toNat = (s.iReg.toNat + x.toNat + 1) % 65536 := by
  rw [advancedI, BitVec.add_assoc, BitVec.toNat_add, BitVec.toNat_add, toNat_zext16 (by decide), Nat.add_mod_mod,
    Nat.add_assoc]
  rfl

/-! ## Blocks inside the memory and beyond it -/

/-- `store-bcd` of three bytes that fit writes them (R143). -/
theorem execStoreBcd_of_fits (x : RegIdx) {s : State} (h : s.iReg.toNat ≤ 4093) :
    execStoreBcd x s = .next { s with mem := Memory.writeList s.mem s.iReg.toNat (bcdDigits (s.V x)) } := by
  rw [execStoreBcd_eq, State.effAddr_zero, if_neg (by omega)]

/-- `reg-load` of a block that fits reads it and advances `I` (R145). -/
theorem execRegLoad_of_fits {x : RegIdx} {s : State} (h : s.iReg.toNat + x.toNat ≤ 4095) :
    execRegLoad x s =
      .next ((s.loadRegs ((List.range (x.toNat + 1)).map fun k => Memory.read s.mem (s.iReg.toNat + k))).setI
        (advancedI s x)) := by
  rw [execRegLoad_eq, State.effAddr_zero, if_neg (by omega)]

/-! ## What the blocks hold -/

/-- Why the digits of a byte are bytes themselves: none is greater than the byte (R143). -/
theorem toNat_ofNat_of_le_toNat (b : Byte) {n : Nat} (h : n ≤ b.toNat) : (BitVec.ofNat 8 n).toNat = n := by
  rw [BitVec.toNat_ofNat, Nat.mod_eq_of_lt (h.trans_lt b.isLt)]

theorem State.length_regsUpTo (s : State) (x : RegIdx) : (s.regsUpTo x).length = x.toNat + 1 := by
  rw [State.regsUpTo, List.length_map, List.length_range]

theorem State.getElem_regsUpTo (s : State) {x r : RegIdx} (h : r.toNat < (s.regsUpTo x).length) :
    (s.regsUpTo x)[r.toNat] = s.V r := by
  simp only [State.regsUpTo, List.getElem_map, List.getElem_range, BitVec.ofNat_toNat, BitVec.setWidth_eq]

/-- After loading the first `n` values of `f`, a register below `n` holds the value at its own index (R145). -/
theorem State.V_loadRegs_map_range (s : State) (n : Nat) (f : Nat → Byte) (r : RegIdx) :
    (s.loadRegs ((List.range n).map f)).V r = if r.toNat < n then f r.toNat else s.V r := by
  rw [State.V_loadRegs, List.length_map, List.length_range]
  split_ifs with h
  · rw [List.getD_eq_getElem _ _ (by simpa using h), List.getElem_map, List.getElem_range]
  · rfl

end Sys2Proof.Machine

open Sys2Proof Sys2Proof.Machine

/-- Settles O41: each form is one write of `I`, and neither value wraps. -/
theorem setIAndFontCharWriteTheAddressRegisterAlone : Obligations.SetIAndFontCharWriteTheAddressRegisterAlone :=
  fun nnn x s =>
    ⟨⟨_, rfl, toNat_zext16 (by decide) nnn, rfl, unchanged_of_faultCause_none (.setI nnn) rfl rfl⟩,
      ⟨_, rfl, toNat_glyphAddr (s.V x), rfl, unchanged_of_faultCause_none (.fontChar x) rfl rfl⟩⟩

/-- Settles O42: one write of `I`, of a 16-bit sum. -/
theorem addIWrapsModulo65536WithoutFlag : Obligations.AddIWrapsModulo65536WithoutFlag :=
  fun x s => ⟨_, rfl, toNat_addI s.iReg (s.V x), rfl, unchanged_of_faultCause_none (.addI x) rfl rfl⟩

/-- Settles O43: a block write that fits is read back digit by digit, and a digit is no greater than its byte. -/
theorem storeBcdWritesThreeDigits : Obligations.StoreBcdWritesThreeDigits := by
  refine fun x s => ⟨fun h => ⟨_, execStoreBcd_of_fits x h, rfl, (Unchanged.refl _ s).writeList rfl, fun hm => ?_⟩,
    fun h => (execStoreBcd_eq x s).trans (if_pos (by rw [State.effAddr_zero]; omega))⟩
  have hread {k : Nat} (hk : k < 3) :
      (Memory.read (Memory.writeList s.mem s.iReg.toNat (bcdDigits (s.V x))) (s.iReg.toNat + k)).toNat =
        (bcdDigits (s.V x))[k].toNat :=
    congrArg BitVec.toNat (Memory.read_writeList_inside _ hm (Nat.add_le_add_right h 3) hk)
  refine ⟨(hread (k := 0) (by decide)).trans ?hundreds, (hread (k := 1) (by decide)).trans ?tens,
    (hread (k := 2) (by decide)).trans ?units⟩
  case hundreds => exact toNat_ofNat_of_le_toNat _ (Nat.div_le_self ..)
  case tens => exact toNat_ofNat_of_le_toNat _ ((Nat.mod_le ..).trans (Nat.div_le_self ..))
  case units => exact toNat_ofNat_of_le_toNat _ (Nat.mod_le ..)

/-- Settles O44: a block write that fits is read back register by register. -/
theorem regDumpStoresRegistersZeroToX : Obligations.RegDumpStoresRegistersZeroToX := by
  refine fun x s => ⟨fun h => ?_, fun h => (execRegDump_eq x s).trans (if_pos (by rw [State.effAddr_zero]; omega))⟩
  refine ⟨_, execRegDump_of_fits (Nat.succ_le_succ h), rfl, toNat_advancedI s x,
    ((Unchanged.refl _ s).writeList ?frame).setI rfl _, fun hm r hr => ?read⟩
  case frame => rw [State.length_regsUpTo, State.effAddr_zero]
  case read =>
    have hlen := s.length_regsUpTo x
    calc Memory.read (Memory.writeList s.mem s.iReg.toNat (s.regsUpTo x)) (s.iReg.toNat + r.toNat)
      _ = (s.regsUpTo x)[r.toNat] := Memory.read_writeList_inside _ hm (hlen ▸ Nat.succ_le_succ h) (by omega)
      _ = s.V r := s.getElem_regsUpTo _

/-- Settles O45: the block load gives register `r` the byte at `I + r`. -/
theorem regLoadLoadsRegistersZeroToX : Obligations.RegLoadLoadsRegistersZeroToX := by
  refine fun x s => ⟨fun h => ?_, fun h => (execRegLoad_eq x s).trans (if_pos (by rw [State.effAddr_zero]; omega))⟩
  refine ⟨_, execRegLoad_of_fits h, rfl, toNat_advancedI s x, rfl, fun r => ?value,
    ((Unchanged.refl _ s).loadRegs fun r _ => ?frame).setI rfl _⟩
  case value => simp only [State.V_setI, State.V_loadRegs_map_range, Nat.lt_succ_iff]
  case frame => exact (mem_regIdxsUpTo (x := 15)).2 (Nat.le_of_lt_succ r.isLt)

/-- Settles O46: `reg-load` reads the bytes `reg-dump` wrote, and both advance the same base. -/
theorem regLoadRestoresWhatRegDumpStored : Obligations.RegLoadRestoresWhatRegDumpStored := by
  intro x s v hm h
  obtain ⟨t, ht, -, htI, -, hstored⟩ := (regDumpStoresRegistersZeroToX x s).1 h
  obtain ⟨u, hu, -, huI, -, hloaded, -⟩ := (regLoadLoadsRegistersZeroToX x { t with v := v, iReg := s.iReg }).1 h
  refine ⟨t, u, ht, hu, BitVec.eq_of_toNat_eq (huI.trans htI.symm), fun r hr => ?_⟩
  calc u.V r
    _ = Memory.read t.mem (s.iReg.toNat + r.toNat) := (hloaded r).trans (if_pos hr)
    _ = s.V r := hstored hm r hr

end

section
/-! The display (spec 44_display.md R150 to R154): which pixels a `draw` toggles, what that does to the display and to the
collision flag, and when two draws cover the same pixels. -/

namespace Sys2Proof.Machine

/-- A cleared display has no pixel on (R150). -/
theorem pixelAt_replicate_zero (p : PixelPos) : pixelAt (Vector.replicate 32 0) p = false := by
  rw [pixelAt, Fin.getElem_fin, Vector.getElem_replicate]
  exact BitVec.getLsbD_zero

/-! ## The pixels of a sprite -/

/-- The pixels `draw` toggles, in the order in which it does (R151). -/
def drawnPixels (x y : RegIdx) (n : Nibble) (s : State) : List PixelPos :=
  spritePixels ((s.V x).toNat % 64) ((s.V y).toNat % 32)
    ((List.range n.toNat).map fun k => Memory.read s.mem (s.iReg.toNat + k))

/-- `draw` toggles exactly the pixels its sprite covers (R151 to R153). -/
theorem mem_drawnPixels {x y : RegIdx} {n : Nibble} {s : State} {p : PixelPos} :
    p ∈ drawnPixels x y n s ↔ SpriteCovers s x y n p := by
  simp only [drawnPixels, mem_spritePixels, SpriteCovers, List.length_map, List.length_range, List.getElem_map,
    List.getElem_range]
  constructor
  · rintro ⟨r, hr, hrow, c, hc, hbit, hcol⟩
    exact ⟨r, c, hr, hc, hbit, hrow, hcol⟩
  · rintro ⟨r, c, hr, hc, hbit, hrow, hcol⟩
    exact ⟨r, hr, hrow, c, hc, hbit, hcol⟩

/-- No pixel is toggled twice: a sprite has fewer than 16 rows, so none wraps onto another (R151). -/
theorem drawnPixels_nodup (x y : RegIdx) (n : Nibble) (s : State) : (drawnPixels x y n s).Nodup := by
  refine spritePixels_nodup _ _ _ ?_
  have hn := n.isLt
  rw [List.length_map, List.length_range]
  omega

/-! ## What a draw does -/

/-- The display after a `draw` that completes, and whether it turned a pixel off (R151, R154). -/
def composed (x y : RegIdx) (n : Nibble) (s : State) : Display × Bool :=
  togglePixels s.disp false (drawnPixels x y n s)

theorem pixelAt_composed_of_covers {x y : RegIdx} {n : Nibble} {s : State} {p : PixelPos} (h : SpriteCovers s x y n p) :
    pixelAt (composed x y n s).1 p = !pixelAt s.disp p := by
  rw [composed, pixelAt_togglePixels _ (drawnPixels_nodup ..), decide_eq_true (mem_drawnPixels.2 h), Bool.xor_true]

theorem pixelAt_composed_of_not_covers {x y : RegIdx} {n : Nibble} {s : State} {p : PixelPos}
    (h : ¬ SpriteCovers s x y n p) : pixelAt (composed x y n s).1 p = pixelAt s.disp p := by
  rw [composed, pixelAt_togglePixels _ (drawnPixels_nodup ..), decide_eq_false (mt mem_drawnPixels.1 h), Bool.xor_false]

/-- A draw collides when a covered pixel was on (R154). -/
theorem composed_collision_iff {x y : RegIdx} {n : Nibble} {s : State} :
    (composed x y n s).2 = true ↔ ∃ p, SpriteCovers s x y n p ∧ pixelAt s.disp p = true := by
  rw [composed, togglePixels_collision _ (drawnPixels_nodup ..), Bool.false_or, List.any_eq_true]
  simp only [mem_drawnPixels]

/-- `draw` of rows that fit the memory, or of no row, composes them (R151). -/
theorem execDraw_of_fits (x y : RegIdx) {n : Nibble} {s : State} (h : n.toNat = 0 ∨ s.iReg.toNat + n.toNat ≤ 4096) :
    execDraw x y n s =
      .next ({ s with disp := (composed x y n s).1 }.setFlag (flagByte (composed x y n s).2)) := by
  rw [execDraw_eq, State.effAddr_zero, if_neg (by omega)]
  rfl

/-! ## Putting a register back -/

/-- With its old value put back a register is in the footprint no longer. -/
theorem Unchanged.restoreV {f : Footprint} {s t : State} {x : RegIdx}
    (h : Unchanged { f with regs := x :: f.regs } s t) : Unchanged f s (t.setV x (s.V x)) :=
  { h with
    regs := fun r hr => by
      rw [State.V_setV]
      split_ifs with hx
      · rw [hx]
      · exact h.regs r (List.not_mem_cons_of_ne_of_not_mem hx hr) }

/-- Which pixels a sprite covers depends on registers and memory, not on the display (R151 to R153). -/
theorem Unchanged.spriteCovers_iff {s t : State} (h : Unchanged { display := true } s t) (x y : RegIdx) (n : Nibble)
    (p : PixelPos) : SpriteCovers t x y n p ↔ SpriteCovers s x y n p := by
  have hV (r : RegIdx) : t.V r = s.V r := h.regs r List.not_mem_nil
  have hmem (a : Nat) : Memory.read t.mem a = Memory.read s.mem a := h.bytes a (.inr (Nat.zero_le a))
  simp only [SpriteCovers, hV, hmem, h.addrReg rfl]

end Sys2Proof.Machine

open Sys2Proof Sys2Proof.Machine

/-- Settles O48: the composed display toggles the covered pixels, and the collision flag goes to `VF`. -/
theorem drawInvertsTheCoveredPixelsAndReportsCollision :
    Obligations.DrawInvertsTheCoveredPixelsAndReportsCollision := by
  refine fun x y n s => ⟨fun h => ?_, fun h0 h => (execDraw_eq x y n s).trans (if_pos ⟨h0, h⟩)⟩
  refine ⟨_, execDraw_of_fits x y h, rfl, ((Unchanged.refl _ s).withDisp rfl _).setV (List.mem_singleton_self _) _,
    fun p => pixelAt_composed_of_covers, fun p => pixelAt_composed_of_not_covers, fun hon => ?on, fun hoff => ?off⟩
  case on => exact (State.V_setV_self ..).trans (congrArg flagByte (composed_collision_iff.2 hon))
  case off =>
    have hmiss : (composed x y n s).2 = false := Bool.eq_false_iff.2 (mt composed_collision_iff.1 hoff)
    exact (State.V_setV_self ..).trans (congrArg flagByte hmiss)

/-- Settles O49: the second draw covers the same pixels, so it inverts each of them back, and finds on those that were
off. -/
theorem drawingTwiceRestoresTheDisplay : Obligations.DrawingTwiceRestoresTheDisplay := by
  intro x y n s h
  obtain ⟨t, ht, -, hun, hcov, hnot, -⟩ := (drawInvertsTheCoveredPixelsAndReportsCollision x y n s).1 h
  have hback : Unchanged { display := true } s (t.setV 15 (s.V 15)) := hun.restoreV
  have hfits : n.toNat = 0 ∨ (t.setV 15 (s.V 15)).iReg.toNat + n.toNat ≤ 4096 := by rwa [hback.addrReg rfl]
  obtain ⟨u, hu, -, -, hcov', hnot', hon, hoff⟩ :=
    (drawInvertsTheCoveredPixelsAndReportsCollision x y n (t.setV 15 (s.V 15))).1 hfits
  simp only [hback.spriteCovers_iff, State.setV_disp] at hcov' hnot' hon hoff
  have hwas : (∃ p, SpriteCovers s x y n p ∧ pixelAt t.disp p = true) ↔
      ∃ p, SpriteCovers s x y n p ∧ pixelAt s.disp p = false :=
    exists_congr fun p => and_congr_right fun hp => by rw [hcov p hp, Bool.not_eq_true']
  refine ⟨t, u, ht, hu, display_ext fun p => ?restored, fun hvf => ?found, fun hp => hon (hwas.2 hp)⟩
  case restored =>
    by_cases hp : SpriteCovers s x y n p
    · rw [hcov' p hp, hcov p hp, Bool.not_not]
    · rw [hnot' p hp, hnot p hp]
  case found =>
    by_contra hnone
    exact absurd (hvf.symm.trans (hoff (mt hwas.1 hnone))) (by decide)

/-- Settles O47: the display written has no pixel on, and `clear-screen` cannot fault. -/
theorem clearScreenTurnsEveryPixelOff : Obligations.ClearScreenTurnsEveryPixelOff :=
  fun _ => ⟨_, rfl, rfl, unchanged_of_faultCause_none .clearScreen rfl rfl, fun y x => pixelAt_replicate_zero (y, x)⟩

end

section
/-! Keypad and timers (spec 45_keys_timers.md R160 to R166): a key skip on either side of the largest key code, the keys that
are down as a rising list, and what `wait-key` writes when there is one. -/

namespace Sys2Proof.Machine

/-! ## The key skips -/

/-- A key skip whose register holds no key code takes the fault `KeyRange` (R166, R175). -/
theorem keySkip_of_gt {x : RegIdx} {s : State} (h : 15 < (s.V x).toNat) (i : Instr) (want : Bool) :
    keySkip i x want s = .next (s.takeFault (s.pc - 2) .keyRange (encode i) 0) := if_pos h

/-- A key skip whose register holds a key code skips on the level of that key (R160, R161). -/
theorem keySkip_of_keyCode {x : RegIdx} {k : KeyCode} {s : State} (h : (s.V x).toNat = k.toNat) (i : Instr)
    (want : Bool) : keySkip i x want s = .next (s.skipIf (s.keyDown k == want)) := by
  have hlt := k.isLt
  have hk : (s.V x).setWidth 4 = k := by rw [← BitVec.ofNat_toNat, h, BitVec.ofNat_toNat, BitVec.setWidth_eq]
  rw [keySkip, if_neg (by omega), hk]

/-! ## The keys that are down -/

theorem State.keysDown_eq_nil {s : State} (h : ∀ k, s.keyDown k = false) : s.keysDown = [] :=
  List.eq_nil_iff_forall_not_mem.2 fun k hk => by simp [State.mem_keysDown, h k] at hk

/-- The keys that are down are listed from the smallest code to the largest (R163). -/
theorem State.keysDown_pairwise_lt (s : State) : s.keysDown.Pairwise fun j k => j.toNat < k.toNat :=
  List.Pairwise.filter _ (by decide)

/-- The default `KEY_PICK` picks the smallest code that is down: it heads the rising list (D13; log 6). -/
theorem keyPick_keysDown {s : State} {k : KeyCode} (hk : s.keyDown k = true)
    (hmin : ∀ j : KeyCode, j.toNat < k.toNat → s.keyDown j = false) : Config.keyPick s.keysDown = k := by
  have hmem := (s.mem_keysDown k).2 hk
  have hrise := s.keysDown_pairwise_lt
  cases hd : s.keysDown with
  | nil => simp [hd] at hmem
  | cons j ks =>
    have hj : s.keyDown j = true := (s.mem_keysDown j).1 (hd ▸ List.mem_cons_self)
    rw [hd] at hmem hrise
    obtain rfl | htail := List.mem_cons.1 hmem
    · rfl
    · have hlt : j.toNat < k.toNat := List.rel_of_pairwise_cons hrise htail
      simp [hmin j hlt] at hj

/-! ## Waiting for a key -/

/-- `wait-key` with a key down writes the one picked from all that are (R163). -/
theorem waitKeyWith_of_keyDown (pick : List KeyCode → KeyCode) (x : RegIdx) {s : State} {k : KeyCode}
    (h : s.keyDown k = true) : waitKeyWith pick x s = s.setV x ((pick s.keysDown).setWidth 8) := by
  have hne := List.ne_nil_of_mem ((s.mem_keysDown k).2 h)
  obtain ⟨j, ks, hd⟩ := List.exists_cons_of_ne_nil hne
  rw [waitKeyWith_of_cons pick x hd, hd]

/-- A key code keeps its value in a register (R163). -/
theorem State.toNat_V_setV_keyCode (s : State) (x : RegIdx) (k : KeyCode) :
    ((s.setV x (k.setWidth 8)).V x).toNat = k.toNat := by
  rw [State.V_setV_self, BitVec.toNat_setWidth_of_le (by decide)]

end Sys2Proof.Machine

open Sys2Proof Sys2Proof.Machine

/-- Settles O51: both skips look at the key `V[X]` names, one for each level. -/
theorem keySkipsTestTheLevelOfOneKey : Obligations.KeySkipsTestTheLevelOfOneKey := by
  intro x k s h
  have hskip : ∀ c, Unchanged {} s (s.skipIf c) := (Unchanged.refl _ s).skipIf
  refine ⟨⟨_, keySkip_of_keyCode h _ true, hskip _, ?pressed⟩, ⟨_, keySkip_of_keyCode h _ false, hskip _, ?released⟩⟩
  case pressed => rw [State.skipIf_pc, beq_true]
  case released => cases s.keyDown k <;> rfl

/-- Settles O52: with no key down `wait-key` goes back to itself; else the default picks the smallest. -/
theorem waitKeyGivesTheSmallestKeyDown : Obligations.WaitKeyGivesTheSmallestKeyDown := by
  refine fun x s => ⟨fun hnone => congrArg _ (waitKeyWith_of_nil _ x (State.keysDown_eq_nil hnone)), fun k hk hmin => ?_⟩
  have hpick : waitKeyWith Config.keyPick x s = s.setV x (k.setWidth 8) := by
    rw [waitKeyWith_of_keyDown _ x hk, keyPick_keysDown hk hmin]
  exact ⟨_, congrArg Host.Outcome.next hpick, s.toNat_V_setV_keyCode x k, rfl,
    (Unchanged.refl _ s).setV (List.mem_singleton_self x) _⟩

/-- Settles O53: the keys down are a non-empty list, so what is picked from it is one of them. -/
theorem waitKeyGivesAKeyDownForEveryPick : Obligations.WaitKeyGivesAKeyDownForEveryPick := by
  intro pick x s hpick ⟨k, hk⟩
  have hmem : pick s.keysDown ∈ s.keysDown := hpick _ (List.ne_nil_of_mem ((s.mem_keysDown k).2 hk))
  rw [waitKeyWith_of_keyDown pick x hk]
  exact ⟨rfl, pick s.keysDown, (s.mem_keysDown _).1 hmem, s.toNat_V_setV_keyCode x _,
    (Unchanged.refl _ s).setV (List.mem_singleton_self x) _⟩

/-- Settles O15: both skips are `keySkip`, which tests the range before it looks at a key. -/
theorem keyCodeAbove15Faults : Obligations.KeyCodeAbove15Faults :=
  fun _ _ h => ⟨keySkip_of_gt h _ true, keySkip_of_gt h _ false⟩

/-- Settles O50: each of the three writes one byte, and none can fault. -/
theorem timerInstructionsMoveOneByte : Obligations.TimerInstructionsMoveOneByte :=
  fun x _ => ⟨⟨_, rfl, State.V_setV_self .., rfl, unchanged_of_faultCause_none (.getDelay x) rfl rfl⟩,
    ⟨_, rfl, rfl, rfl, unchanged_of_faultCause_none (.setDelay x) rfl rfl⟩,
    ⟨_, rfl, rfl, rfl, unchanged_of_faultCause_none (.setSound x) rfl rfl⟩⟩

end

section
/-! The faults a step can take (spec 60_exceptions.md R170 to R179): an instruction's own one fault, the unknown word under both
policies, and that a fault leaves nothing behind but its record. -/

namespace Sys2Proof.Machine

/-- An instruction leaves the fault record alone, or takes its own one fault with `pc0` and its word recorded (R177, R179). -/
theorem fault_of_exec {i : Instr} {s t : State} (h : exec i s = .next t) :
    t.fault = s.fault ∨
      ∃ code addr, faultCause i = some code ∧ t = s.takeFault (s.pc - 2) code (encode i) addr := by
  obtain ⟨code, addr, hc, hr⟩ | ⟨u, hu, hun⟩ := exec_cases i s
  · exact .inr ⟨code, addr, hc, Host.Outcome.next.inj (h.symm.trans hr)⟩
  · cases hu.symm.trans h
    exact .inl hun.fault

/-- A fetched word that does not decode is an unknown opcode, and the policy decides (R174). -/
theorem stepWith_unknown_of_fetch (P : Params) {s : State} {w : Word} {e : DecodeError} (h : s.fault.valid = false)
    (hf : s.fetch = .ok w) (he : decode w = .error e) :
    stepWith P s = .next (s.advance.unknownOpcode P.unknownOpcodePolicy w) := by
  simp [stepWith, h, hf, he]

/-- An unknown word under the policy `Fault` records itself and undoes the advance of `PC` (R174, R177). -/
theorem State.unknownOpcode_fault_advance (w : Word) (s : State) :
    s.advance.unknownOpcode .fault w = { s with fault := ⟨true, .unknownOpcode, s.pc, w, 0⟩ } := by
  rw [State.unknownOpcode_fault, State.takeFault_advance]

/-- The state `s` halted by a fault at its `PC`: `FAULT` is written and nothing else (R177). -/
def State.HaltedAtPc (s t : State) : Prop :=
  ∃ code addr, t = { s with fault := ⟨true, code, s.pc, s.wordAtPc, addr⟩ }

/-- An instruction decoded at `PC` that halts a running core halts it at `PC`: the word recorded is the one decoded (R177). -/
theorem haltedAtPc_of_exec {s t : State} {i : Instr} (hv : s.fault.valid = false) (hi : decode s.wordAtPc = .ok i)
    (h : exec i s.advance = .next t) (ht : t.fault.valid = true) : s.HaltedAtPc t := by
  obtain hkept | ⟨code, addr, -, rfl⟩ := fault_of_exec h
  · rw [hkept, State.advance_fault, hv] at ht
    cases ht
  · exact ⟨code, addr, by rw [State.takeFault_advance, encode_of_decode hi]⟩

/-- A step that halts a running core halts it at `PC`, whether the fetch, the decoding or the instruction faults (R179). -/
theorem haltedAtPc_of_step {s t : State} (hv : s.fault.valid = false) (h : step s = .next t)
    (ht : t.fault.valid = true) : s.HaltedAtPc t := by
  obtain ⟨hhalted, -⟩ | ⟨-, hpc, hs⟩ | ⟨-, hpc, i, hi, hs⟩ | ⟨-, hpc, e, -, hs⟩ := step_cases s
  · rw [hv] at hhalted
    cases hhalted
  · cases hs.symm.trans h
    exact ⟨_, _, by rw [State.wordAtPc_of_lt hpc]; rfl⟩
  · rw [← State.wordAtPc_of_le hpc] at hi
    exact haltedAtPc_of_exec hv hi (hs.symm.trans h) ht
  · cases hs.symm.trans h
    rw [← State.wordAtPc_of_le hpc]
    exact ⟨_, _, State.unknownOpcode_fault_advance ..⟩

end Sys2Proof.Machine

open Sys2Proof Sys2Proof.Machine

/-- Settles O13, by `haltedAtPc_of_step`. -/
theorem faultingStepChangesOnlyTheFaultRecord : Obligations.FaultingStepChangesOnlyTheFaultRecord := by
  intro s t hv h ht
  obtain ⟨code, addr, rfl⟩ := haltedAtPc_of_step hv h ht
  exact ⟨rfl, rfl, rfl⟩

/-- Settles O14, by `fault_of_exec`. -/
theorem eachInstructionRaisesOnlyItsOwnFault : Obligations.EachInstructionRaisesOnlyItsOwnFault := by
  intro i s t h
  obtain hkept | ⟨code, addr, hc, rfl⟩ := fault_of_exec h
  · exact .inl hkept
  · exact .inr ⟨code, hc, rfl, rfl, rfl, rfl⟩

/-- Settles O10: the policy decides between the fault's record and the advanced `PC`; the default policy is `Fault`. -/
theorem unknownOpcodeFollowsThePolicy : Obligations.UnknownOpcodeFollowsThePolicy := by
  intro P s w e hv hf he
  have hfault (Q : Params) (hQ : Q.unknownOpcodePolicy = .fault) :
      stepWith Q s = .next { s with fault := ⟨true, .unknownOpcode, s.pc, w, 0⟩ } := by
    rw [stepWith_unknown_of_fetch Q hv hf he, hQ, State.unknownOpcode_fault_advance]
  refine ⟨hfault P, fun hnop => ?_, hfault Config.params rfl⟩
  rw [stepWith_unknown_of_fetch P hv hf he, hnop, State.unknownOpcode_nop]
  rfl

end

section
/-! Reset, load and the interleavings of the host's transactions (spec 70_reset_and_hazards.md R190 to R198): what a reset and
a load leave, that every transaction keeps the invariant, and how a core spins at `wait-key`. -/

namespace Sys2Proof.Machine

/-! ## What a load leaves -/

theorem State.load_of_le (P : Params) (s : State) {image : List Byte} (h : image.length ≤ 3584) :
    s.load P image =
      (.ok, { s.hostReset P with mem := Memory.writeList (s.hostReset P).mem Config.progBase image }) :=
  if_neg (Nat.not_lt.2 h)

theorem State.load_of_lt (P : Params) (s : State) {image : List Byte} (h : 3584 < image.length) :
    s.load P image = (.loadTooLarge, s.hostReset P) := if_pos h

/-- Whatever the image, a load leaves the reset state with some canonical memory (R192, R193). -/
theorem State.load_eq_hostReset_with_mem (P : Params) (s : State) (image : List Byte) :
    ∃ m : Memory, m.wf = true ∧ (s.load P image).2 = { s.hostReset P with mem := m } := by
  obtain h | h := Nat.lt_or_ge 3584 image.length
  · exact ⟨_, Memory.nil_wf, congrArg Prod.snd (State.load_of_lt P s h)⟩
  · exact ⟨_, Memory.writeList_wf _ image Memory.nil_wf, congrArg Prod.snd (State.load_of_le P s h)⟩

/-! ## Every transaction keeps the invariant -/

/-- After a reset no slot is live and the fault record is clear (R24, R190). -/
theorem inv_resetWith (P : Params) : (State.resetWith P).Inv P where
  memory := Memory.nil_wf
  slots := List.length_replicate
  depth := Nat.zero_le _
  returnAddresses _ hj := absurd hj (Nat.not_lt_zero _)
  running _ := rfl
  cause := nofun
  faultPc := nofun
  faultInstr := nofun
  faultAddr := nofun

/-- The count of random bytes, which the host's reset keeps, has no part in the invariant (log 7). -/
theorem inv_hostReset (P : Params) (s : State) : (s.hostReset P).Inv P := { inv_resetWith P with }

theorem inv_load (P : Params) (s : State) (image : List Byte) : (s.load P image).2.Inv P := by
  obtain ⟨m, hm, hload⟩ := State.load_eq_hostReset_with_mem P s image
  have hpc : (s.hostReset P).pc.toNat ≤ 4096 := show 0x200 ≤ 4096 by decide
  rw [hload]
  exact (inv_hostReset P s).of_running rfl rfl hm hpc (.inl ⟨Nat.le_refl _, rfl⟩)

/-- The timers have no part in the invariant. -/
theorem State.Inv.tick {P : Params} {s : State} (hs : s.Inv P) : s.tick.Inv P := { hs with }

/-- The key flags have no part in the invariant. -/
theorem State.Inv.setKey {P : Params} {s : State} (hs : s.Inv P) (k : KeyCode) (b : Bool) : (s.setKey k b).Inv P :=
  { hs with }

/-- Each of the host's transactions keeps the invariant (R4, R7). -/
theorem State.Inv.transact {P : Params} {s : State} (hs : s.Inv P) (e : Transaction) : (s.transact P e).Inv P := by
  cases e with
  | step =>
    rw [State.transact]
    split
    · next t ht => exact inv_of_stepWith hs ht
    · exact hs
    · exact hs
  | tick => exact hs.tick
  | keyPress k => exact hs.setKey k true
  | keyRelease k => exact hs.setKey k false
  | reset => exact inv_hostReset P s
  | load image => exact inv_load P s image

theorem State.Inv.transactAll {P : Params} {s : State} (hs : s.Inv P) (es : List Transaction) :
    (s.transactAll P es).Inv P := by
  induction es generalizing s with
  | nil => exact hs
  | cons e es ih => exact ih (hs.transact e)

/-! ## Spinning at `wait-key` -/

/-- A core at `wait-key` with no key down: the instruction undoes the advance of `PC` (R163, R197). -/
theorem step_waitKey_of_no_key {s : State} {x : RegIdx} (hv : s.fault.valid = false)
    (hf : s.fetch = .ok (encode (.waitKey x))) (hnone : ∀ k, s.keyDown k = false) : step s = .next s := by
  have hpc : s.advance.pc - 2 = s.pc := by rw [State.advance_pc, BitVec.add_sub_cancel]
  calc step s
    _ = exec (.waitKey x) s.advance := step_run hv hf (decode_encode _)
    _ = .next { s.advance with pc := s.advance.pc - 2 } := (waitKeyGivesTheSmallestKeyDown x s.advance).1 hnone
    _ = .next s := by
      rw [hpc]
      rfl

/-- A core at `wait-key` with one key down receives that key and goes on (R163). -/
theorem step_waitKey_of_one_key {s : State} {x : RegIdx} {k : KeyCode} (hv : s.fault.valid = false)
    (hf : s.fetch = .ok (encode (.waitKey x))) (hk : ∀ j, s.keyDown j = decide (j = k)) :
    ∃ t, step s = .next t ∧ (t.V x).toNat = k.toNat ∧ t.pc = s.pc + 2 := by
  have hdown : s.keyDown k = true := by rw [hk, decide_eq_true_iff]
  have hbelow (j : KeyCode) (hj : j.toNat < k.toNat) : s.keyDown j = false := by
    rw [hk, decide_eq_false_iff_not]
    exact fun hjk => hj.ne (congrArg BitVec.toNat hjk)
  obtain ⟨t, ht, hval, hpc, -⟩ := (waitKeyGivesTheSmallestKeyDown x s.advance).2 k hdown hbelow
  exact ⟨t, (step_run hv hf (decode_encode _)).trans ht, hval, hpc⟩

end Sys2Proof.Machine

open Sys2Proof Sys2Proof.Machine

/-- Settles O18, by induction over the transactions, each of which keeps the invariant. -/
theorem everyInterleavingKeepsTheInvariant : Obligations.EveryInterleavingKeepsTheInvariant :=
  fun _ es _ hs => hs.transactAll es

/-- Settles O54: neither a tick nor a release puts a key down, and after a press the one key down is the key pressed. -/
theorem waitKeySpinsUntilAKeyPress : Obligations.WaitKeySpinsUntilAKeyPress := by
  intro s x hv hf hnone
  refine ⟨step_waitKey_of_no_key hv hf hnone, step_waitKey_of_no_key (s := s.tick) hv hf hnone, fun k => ?release,
    fun k => ?press⟩
  case release =>
    obtain ⟨-, hreleased, -⟩ := keyEventsSetOneFlag s k
    refine step_waitKey_of_no_key (s := s.keyRelease k) hv hf fun j => ?_
    rw [hreleased, hnone, Bool.and_false]
  case press =>
    obtain ⟨hpressed, -⟩ := keyEventsSetOneFlag s k
    refine step_waitKey_of_one_key (s := s.keyPress k) hv hf fun j => ?_
    rw [hpressed, hnone, Bool.or_false]

/-- Settles O58: the image that fits is a block write over the reset memory, read back inside and outside the block. -/
theorem loadPlacesTheImageOrLeavesTheResetState : Obligations.LoadPlacesTheImageOrLeavesTheResetState := by
  refine fun P s image => ⟨fun hle => ?_, fun hlt => State.load_of_lt P s hlt⟩
  have hfit : Config.progBase + image.length ≤ Config.memSize := Nat.add_le_add_left hle 0x200
  rw [State.load_of_le P s hle]
  exact ⟨rfl, rfl, fun _ hk => Memory.read_writeList_inside image Memory.nil_wf hfit hk,
    fun _ ha => Memory.read_writeList_outside image _ ha⟩

/-- Settles O16, by `inv_resetWith`. -/
theorem resetMeetsTheInvariant : Obligations.ResetMeetsTheInvariant :=
  ⟨inv_resetWith Config.params, inv_resetWith⟩

/-- Settles O57: nothing is listed in the reset memory, so it reads as the font table and zeros; the other arrays are
replicated. -/
theorem resetSetsEveryPieceOfState : Obligations.ResetSetsEveryPieceOfState := by
  intro P s
  have hregs (r : RegIdx) : (s.hostReset P).V r = 0 := Vector.getElem_replicate r.isLt
  have hkeys (k : KeyCode) : (s.hostReset P).keyDown k = false := Vector.getElem_replicate k.isLt
  have hfont (a : Fin 80) : Memory.unwritten a.val = Config.fontRom a := dif_pos a.isLt
  have hzero (a : Nat) (ha : 80 ≤ a) : Memory.unwritten a = 0 := dif_neg (Nat.not_lt.2 ha)
  exact ⟨hregs, rfl, rfl, rfl, List.length_replicate, rfl, rfl, hkeys, hfont, fun a ha _ => hzero a ha,
    fun y x => pixelAt_replicate_zero (y, x), rfl, rfl⟩

/-- Settles O60: the stack a load leaves is empty and has a first slot, where the `call` saves its `PC`. -/
theorem afterLoadACallIsAccepted : Obligations.AfterLoadACallIsAccepted := by
  intro P s image nnn hlegal
  obtain ⟨m, -, hload⟩ := State.load_eq_hostReset_with_mem P s image
  have hlen : 0 < (s.hostReset P).stack.length := List.length_replicate.symm ▸ hlegal.depthPositive
  rw [hload]
  refine ⟨_, execCallWith_of_lt nnn hlegal.depthPositive, toNat_zext16 (by decide) nnn, rfl, ?_, rfl⟩
  rw [State.slot_set (s.hostReset P) _ hlen rfl, if_pos rfl]
  rfl

end
